-- ==== Sys2Proof/Word.lean ====
section
/-! DEFINITION. The widths of the CHIP-8 core's values (spec/00_scope.md R8, section 6): every value is unsigned, and the
hardware has no signed quantity. -/

namespace Sys2Proof

/-- A u8: a general register, a timer, a memory byte, the immediate `kk`. -/
abbrev Byte := BitVec 8

/-- A u12: the program counter, a stack entry, the immediate `nnn`. -/
abbrev Addr := BitVec 12

/-- A u16: the address register I and an opcode word. -/
abbrev Word := BitVec 16

/-- A register number, the fields `x` and `y` (R71); also the row count `n` and a key number. -/
abbrev Nibble := BitVec 4

/-- The framebuffer's shape (R34): 32 rows, top first, of 64 pixels, leftmost first. -/
abbrev Framebuffer := Vector (Vector Bool 64) 32

end Sys2Proof
end

