-- ==== Sys2Proof/Syntax.lean ====
section
/-! DEFINITION. The instructions (one constructor for each of the 34 rows of spec/opcode_table.json, in its order) and the
events the environment can issue. The fields carry the widths of R71: a register number or row count is 4 bits, `kk` 8
bits, `nnn` 12 bits. -/

namespace Sys2Proof

/-- The instructions of R79, in the table's order. -/
inductive Instr where
  /-- `CLS` (00E0, R152) -/
  | cls
  /-- `RET` (00EE, R101) -/
  | ret
  /-- `JP nnn` (1nnn, R102) -/
  | jpNnn (nnn : Addr)
  /-- `CALL nnn` (2nnn, R103) -/
  | callNnn (nnn : Addr)
  /-- `SE Vx, kk` (3xkk, R104) -/
  | seVxKk (x : Nibble) (kk : Byte)
  /-- `SNE Vx, kk` (4xkk, R105) -/
  | sneVxKk (x : Nibble) (kk : Byte)
  /-- `SE Vx, Vy` (5xy0, R106) -/
  | seVxVy (x y : Nibble)
  /-- `LD Vx, kk` (6xkk, R121) -/
  | ldVxKk (x : Nibble) (kk : Byte)
  /-- `ADD Vx, kk` (7xkk, R122) -/
  | addVxKk (x : Nibble) (kk : Byte)
  /-- `LD Vx, Vy` (8xy0, R123) -/
  | ldVxVy (x y : Nibble)
  /-- `OR Vx, Vy` (8xy1, R124) -/
  | orVxVy (x y : Nibble)
  /-- `AND Vx, Vy` (8xy2, R125) -/
  | andVxVy (x y : Nibble)
  /-- `XOR Vx, Vy` (8xy3, R126) -/
  | xorVxVy (x y : Nibble)
  /-- `ADD Vx, Vy` (8xy4, R127) -/
  | addVxVy (x y : Nibble)
  /-- `SUB Vx, Vy` (8xy5, R128) -/
  | subVxVy (x y : Nibble)
  /-- `SHR Vx` (8xy6, R129); `y` is decoded but not used (R82) -/
  | shrVx (x y : Nibble)
  /-- `SUBN Vx, Vy` (8xy7, R130) -/
  | subnVxVy (x y : Nibble)
  /-- `SHL Vx` (8xyE, R131); `y` is decoded but not used (R82) -/
  | shlVx (x y : Nibble)
  /-- `SNE Vx, Vy` (9xy0, R107) -/
  | sneVxVy (x y : Nibble)
  /-- `LD I, nnn` (Annn, R140) -/
  | ldINnn (nnn : Addr)
  /-- `JP V0, nnn` (Bnnn, R108) -/
  | jpV0Nnn (nnn : Addr)
  /-- `RND Vx, kk` (Cxkk, R132) -/
  | rndVxKk (x : Nibble) (kk : Byte)
  /-- `DRW Vx, Vy, n` (Dxyn, R153) -/
  | drwVxVyN (x y n : Nibble)
  /-- `SKP Vx` (Ex9E, R160) -/
  | skpVx (x : Nibble)
  /-- `SKNP Vx` (ExA1, R161) -/
  | sknpVx (x : Nibble)
  /-- `LD Vx, DT` (Fx07, R164) -/
  | ldVxDt (x : Nibble)
  /-- `LD Vx, K` (Fx0A, R162) -/
  | ldVxK (x : Nibble)
  /-- `LD DT, Vx` (Fx15, R165) -/
  | ldDtVx (x : Nibble)
  /-- `LD ST, Vx` (Fx18, R166) -/
  | ldStVx (x : Nibble)
  /-- `ADD I, Vx` (Fx1E, R141) -/
  | addIVx (x : Nibble)
  /-- `LD F, Vx` (Fx29, R142) -/
  | ldFVx (x : Nibble)
  /-- `LD B, Vx` (Fx33, R143) -/
  | ldBVx (x : Nibble)
  /-- `LD [I], Vx` (Fx55, R144) -/
  | ldMemIVx (x : Nibble)
  /-- `LD Vx, [I]` (Fx65, R145) -/
  | ldVxMemI (x : Nibble)
deriving DecidableEq, Repr

/-- The mnemonic, in the notation of R83 (D18). -/
def Instr.mnemonic : Instr → String
  | .cls => "CLS"
  | .ret => "RET"
  | .jpNnn _ => "JP nnn"
  | .callNnn _ => "CALL nnn"
  | .seVxKk _ _ => "SE Vx, kk"
  | .sneVxKk _ _ => "SNE Vx, kk"
  | .seVxVy _ _ => "SE Vx, Vy"
  | .ldVxKk _ _ => "LD Vx, kk"
  | .addVxKk _ _ => "ADD Vx, kk"
  | .ldVxVy _ _ => "LD Vx, Vy"
  | .orVxVy _ _ => "OR Vx, Vy"
  | .andVxVy _ _ => "AND Vx, Vy"
  | .xorVxVy _ _ => "XOR Vx, Vy"
  | .addVxVy _ _ => "ADD Vx, Vy"
  | .subVxVy _ _ => "SUB Vx, Vy"
  | .shrVx _ _ => "SHR Vx"
  | .subnVxVy _ _ => "SUBN Vx, Vy"
  | .shlVx _ _ => "SHL Vx"
  | .sneVxVy _ _ => "SNE Vx, Vy"
  | .ldINnn _ => "LD I, nnn"
  | .jpV0Nnn _ => "JP V0, nnn"
  | .rndVxKk _ _ => "RND Vx, kk"
  | .drwVxVyN _ _ _ => "DRW Vx, Vy, n"
  | .skpVx _ => "SKP Vx"
  | .sknpVx _ => "SKNP Vx"
  | .ldVxDt _ => "LD Vx, DT"
  | .ldVxK _ => "LD Vx, K"
  | .ldDtVx _ => "LD DT, Vx"
  | .ldStVx _ => "LD ST, Vx"
  | .addIVx _ => "ADD I, Vx"
  | .ldFVx _ => "LD F, Vx"
  | .ldBVx _ => "LD B, Vx"
  | .ldMemIVx _ => "LD [I], Vx"
  | .ldVxMemI _ => "LD Vx, [I]"

/-- The events by which the environment drives the core (R205). A Step carries the sixteen key levels `keys_held` of R39,
of which the core's `key` input is a function (R200, R201), and the random byte (R202). -/
inductive Event where
  | reset (rom font : List Byte)
  | timerTick
  | step (keysHeld : BitVec 16) (rnd : Byte)
deriving DecidableEq, Repr

end Sys2Proof
end

