-- ==== Sys2Proof/Decode.lean ====
section
/-! DEFINITION. The encoding (spec/30_encoding.md): the fields of a word, the decoder, the encoder and the opcode table. -/

namespace Sys2Proof

/-- Why the decoder refuses: the word matches no row of the table (R80), or there are fewer than two bytes. -/
inductive DecodeReject where
  | unknownEncoding (op : Word)
  | truncated
deriving DecidableEq, Repr

/-- The field `i`, bits 15:12 (R71). -/
def fieldI (op : Word) : Nibble := op.extractLsb' 12 4
/-- The field `x`, bits 11:8 (R71). -/
def fieldX (op : Word) : Nibble := op.extractLsb' 8 4
/-- The field `y`, bits 7:4 (R71). -/
def fieldY (op : Word) : Nibble := op.extractLsb' 4 4
/-- The field `n`, bits 3:0 (R71). -/
def fieldN (op : Word) : Nibble := op.extractLsb' 0 4
/-- The field `kk`, bits 7:0 (R71). -/
def fieldKk (op : Word) : Byte := op.extractLsb' 0 8
/-- The field `nnn`, bits 11:0 (R71). -/
def fieldNnn (op : Word) : Addr := op.extractLsb' 0 12

/-- The group i = 0: only the whole words 00E0 and 00EE (R77, R78). -/
def decodeGroup0 (op : Word) : Option Instr :=
  match fieldNnn op with
  | 0x0E0#12 => some .cls
  | 0x0EE#12 => some .ret
  | _ => none

/-- The group i = 8, by `n` (R77). -/
def decodeGroup8 (op : Word) : Option Instr :=
  match fieldN op with
  | 0x0#4 => some (.ldVxVy (fieldX op) (fieldY op))
  | 0x1#4 => some (.orVxVy (fieldX op) (fieldY op))
  | 0x2#4 => some (.andVxVy (fieldX op) (fieldY op))
  | 0x3#4 => some (.xorVxVy (fieldX op) (fieldY op))
  | 0x4#4 => some (.addVxVy (fieldX op) (fieldY op))
  | 0x5#4 => some (.subVxVy (fieldX op) (fieldY op))
  | 0x6#4 => some (.shrVx (fieldX op) (fieldY op))
  | 0x7#4 => some (.subnVxVy (fieldX op) (fieldY op))
  | 0xE#4 => some (.shlVx (fieldX op) (fieldY op))
  | _ => none

/-- The group i = E, by `kk` (R77). -/
def decodeGroupE (op : Word) : Option Instr :=
  match fieldKk op with
  | 0x9E#8 => some (.skpVx (fieldX op))
  | 0xA1#8 => some (.sknpVx (fieldX op))
  | _ => none

/-- The group i = F, by `kk` (R77). -/
def decodeGroupF (op : Word) : Option Instr :=
  match fieldKk op with
  | 0x07#8 => some (.ldVxDt (fieldX op))
  | 0x0A#8 => some (.ldVxK (fieldX op))
  | 0x15#8 => some (.ldDtVx (fieldX op))
  | 0x18#8 => some (.ldStVx (fieldX op))
  | 0x1E#8 => some (.addIVx (fieldX op))
  | 0x29#8 => some (.ldFVx (fieldX op))
  | 0x33#8 => some (.ldBVx (fieldX op))
  | 0x55#8 => some (.ldMemIVx (fieldX op))
  | 0x65#8 => some (.ldVxMemI (fieldX op))
  | _ => none

/-- The instruction a word matches, if any (R76 to R79); 5xyn and 9xyn match only with n = 0 (R78, D3; log 6). -/
def decodeOp (op : Word) : Option Instr :=
  match fieldI op with
  | 0x0#4 => decodeGroup0 op
  | 0x1#4 => some (.jpNnn (fieldNnn op))
  | 0x2#4 => some (.callNnn (fieldNnn op))
  | 0x3#4 => some (.seVxKk (fieldX op) (fieldKk op))
  | 0x4#4 => some (.sneVxKk (fieldX op) (fieldKk op))
  | 0x5#4 => if fieldN op = 0 then some (.seVxVy (fieldX op) (fieldY op)) else none
  | 0x6#4 => some (.ldVxKk (fieldX op) (fieldKk op))
  | 0x7#4 => some (.addVxKk (fieldX op) (fieldKk op))
  | 0x8#4 => decodeGroup8 op
  | 0x9#4 => if fieldN op = 0 then some (.sneVxVy (fieldX op) (fieldY op)) else none
  | 0xA#4 => some (.ldINnn (fieldNnn op))
  | 0xB#4 => some (.jpV0Nnn (fieldNnn op))
  | 0xC#4 => some (.rndVxKk (fieldX op) (fieldKk op))
  | 0xD#4 => some (.drwVxVyN (fieldX op) (fieldY op) (fieldN op))
  | 0xE#4 => decodeGroupE op
  | 0xF#4 => decodeGroupF op
  | _ => none

/-- The decoder of one word, rejecting by name (R80). -/
def decodeWord (op : Word) : Except DecodeReject Instr :=
  match decodeOp op with
  | some i => .ok i
  | none => .error (.unknownEncoding op)

/-- A word from its two bytes, the byte at the lower address high (R59). -/
def wordOfBytes (hi lo : Byte) : Word := hi ++ lo

/-- The byte of a word at the lower address (R59). -/
def highByte (op : Word) : Byte := op.extractLsb' 8 8
/-- The byte of a word at the higher address (R59). -/
def lowByte (op : Word) : Byte := op.extractLsb' 0 8

/-- The decoder over a byte stream: the instruction and the bytes after it. Every instruction is two bytes long (R70). -/
def decode : List Byte → Except DecodeReject (Instr × List Byte)
  | hi :: lo :: rest => (decodeWord (wordOfBytes hi lo)).map (fun i => (i, rest))
  | _ => .error .truncated

/-- A word of the formats FIX and A: `i[4] nnn[12]` (R72). -/
def formA (i : Nibble) (nnn : Addr) : Word := i ++ nnn
/-- A word of the formats RK and R: `i[4] x[4] kk[8]` (R72). -/
def formRK (i x : Nibble) (kk : Byte) : Word := i ++ x ++ kk
/-- A word of the formats RR and RRN: `i[4] x[4] y[4] n[4]` (R72). -/
def formRRN (i x y n : Nibble) : Word := i ++ x ++ y ++ n

/-- The word of an instruction (R72, R79). -/
def encode : Instr → Word
  | .cls => formA 0x0 0x0E0
  | .ret => formA 0x0 0x0EE
  | .jpNnn nnn => formA 0x1 nnn
  | .callNnn nnn => formA 0x2 nnn
  | .seVxKk x kk => formRK 0x3 x kk
  | .sneVxKk x kk => formRK 0x4 x kk
  | .seVxVy x y => formRRN 0x5 x y 0x0
  | .ldVxKk x kk => formRK 0x6 x kk
  | .addVxKk x kk => formRK 0x7 x kk
  | .ldVxVy x y => formRRN 0x8 x y 0x0
  | .orVxVy x y => formRRN 0x8 x y 0x1
  | .andVxVy x y => formRRN 0x8 x y 0x2
  | .xorVxVy x y => formRRN 0x8 x y 0x3
  | .addVxVy x y => formRRN 0x8 x y 0x4
  | .subVxVy x y => formRRN 0x8 x y 0x5
  | .shrVx x y => formRRN 0x8 x y 0x6
  | .subnVxVy x y => formRRN 0x8 x y 0x7
  | .shlVx x y => formRRN 0x8 x y 0xE
  | .sneVxVy x y => formRRN 0x9 x y 0x0
  | .ldINnn nnn => formA 0xA nnn
  | .jpV0Nnn nnn => formA 0xB nnn
  | .rndVxKk x kk => formRK 0xC x kk
  | .drwVxVyN x y n => formRRN 0xD x y n
  | .skpVx x => formRK 0xE x 0x9E
  | .sknpVx x => formRK 0xE x 0xA1
  | .ldVxDt x => formRK 0xF x 0x07
  | .ldVxK x => formRK 0xF x 0x0A
  | .ldDtVx x => formRK 0xF x 0x15
  | .ldStVx x => formRK 0xF x 0x18
  | .addIVx x => formRK 0xF x 0x1E
  | .ldFVx x => formRK 0xF x 0x29
  | .ldBVx x => formRK 0xF x 0x33
  | .ldMemIVx x => formRK 0xF x 0x55
  | .ldVxMemI x => formRK 0xF x 0x65

/-- The two bytes of an instruction, in address order (R59, R70). -/
def encodeBytes (i : Instr) : List Byte := [highByte (encode i), lowByte (encode i)]

/-- A row of the opcode table: a word is the instruction when `op & mask = bits` (R79). -/
structure OpcodeRow where
  mnemonic : String
  mask     : Word
  bits     : Word
deriving DecidableEq, Repr

/-- The word matches the row (R79). -/
def OpcodeRow.accepts (r : OpcodeRow) (op : Word) : Bool := op &&& r.mask == r.bits

/-- The rows of R79, in its order. -/
def opcodeTable : List OpcodeRow :=
  [ ⟨"CLS", 0xFFFF, 0x00E0⟩, ⟨"RET", 0xFFFF, 0x00EE⟩, ⟨"JP nnn", 0xF000, 0x1000⟩, ⟨"CALL nnn", 0xF000, 0x2000⟩,
    ⟨"SE Vx, kk", 0xF000, 0x3000⟩, ⟨"SNE Vx, kk", 0xF000, 0x4000⟩, ⟨"SE Vx, Vy", 0xF00F, 0x5000⟩,
    ⟨"LD Vx, kk", 0xF000, 0x6000⟩, ⟨"ADD Vx, kk", 0xF000, 0x7000⟩ ] ++
  [ ⟨"LD Vx, Vy", 0xF00F, 0x8000⟩, ⟨"OR Vx, Vy", 0xF00F, 0x8001⟩, ⟨"AND Vx, Vy", 0xF00F, 0x8002⟩,
    ⟨"XOR Vx, Vy", 0xF00F, 0x8003⟩, ⟨"ADD Vx, Vy", 0xF00F, 0x8004⟩, ⟨"SUB Vx, Vy", 0xF00F, 0x8005⟩,
    ⟨"SHR Vx", 0xF00F, 0x8006⟩, ⟨"SUBN Vx, Vy", 0xF00F, 0x8007⟩, ⟨"SHL Vx", 0xF00F, 0x800E⟩ ] ++
  [ ⟨"SNE Vx, Vy", 0xF00F, 0x9000⟩, ⟨"LD I, nnn", 0xF000, 0xA000⟩, ⟨"JP V0, nnn", 0xF000, 0xB000⟩,
    ⟨"RND Vx, kk", 0xF000, 0xC000⟩, ⟨"DRW Vx, Vy, n", 0xF000, 0xD000⟩ ] ++
  [ ⟨"SKP Vx", 0xF0FF, 0xE09E⟩, ⟨"SKNP Vx", 0xF0FF, 0xE0A1⟩, ⟨"LD Vx, DT", 0xF0FF, 0xF007⟩,
    ⟨"LD Vx, K", 0xF0FF, 0xF00A⟩, ⟨"LD DT, Vx", 0xF0FF, 0xF015⟩, ⟨"LD ST, Vx", 0xF0FF, 0xF018⟩,
    ⟨"ADD I, Vx", 0xF0FF, 0xF01E⟩, ⟨"LD F, Vx", 0xF0FF, 0xF029⟩, ⟨"LD B, Vx", 0xF0FF, 0xF033⟩,
    ⟨"LD [I], Vx", 0xF0FF, 0xF055⟩, ⟨"LD Vx, [I]", 0xF0FF, 0xF065⟩ ]

/-- A word given as a number with the table's numbering, of which only the low `nbits` bits are used. -/
def wordOfTable (nbits w : Nat) : Word := BitVec.ofNat 16 (w % 2 ^ nbits)

/-- What the decoder reads from the instruction whose bits are `w`, numbered as spec/opcode_table.json numbers them (bit
15 of a row is the top bit of the byte at the lower address, R59, R70), laid out as the hardware stores it. -/
def decodeTableWord (nbits w : Nat) : Option Instr :=
  match decode [highByte (wordOfTable nbits w), lowByte (wordOfTable nbits w)] with
  | .ok (i, _) => some i
  | .error _ => none

end Sys2Proof
end

