-- ==== Sys2Proof/Config.lean ====
section
/-! DEFINITION. What is fixed for the machine (spec/00_scope.md R8, R9), and the free values: constants without a body,
for what the spec leaves open (logs 1 and 2). -/

namespace Sys2Proof

/-- The size of M in bytes (R8, R50). -/
@[simp] abbrev Config.memSize : Nat := 4096
/-- The address of glyph 0 (R8, R53). -/
@[simp] abbrev Config.fontBase : Nat := 0x050
/-- The size of the font table in bytes (R8, R53). -/
@[simp] abbrev Config.fontSize : Nat := 80
/-- The reset value of PC and the load address of the ROM image (R8, R222). -/
@[simp] abbrev Config.progBase : Nat := 0x200
/-- The longest ROM image (R8, R222). -/
@[simp] abbrev Config.romMax : Nat := 3584
/-- The number of stack entries (R8, R27). -/
@[simp] abbrev Config.stackDepth : Nat := 16
/-- The framebuffer's width in pixels (R8, R34). -/
@[simp] abbrev Config.fbWidth : Nat := 64
/-- The framebuffer's height in pixels (R8, R34). -/
@[simp] abbrev Config.fbHeight : Nat := 32

/-- The default font table of R54: glyph 0 is the source's own, the rows of glyphs 1 to F are PRESUMED (the spec marks
them as general knowledge, GK1; log 3). -/
def Config.defaultFont : List Byte :=
  [0xF0, 0x90, 0x90, 0x90, 0xF0] ++ [0x20, 0x60, 0x20, 0x20, 0x70] ++
  [0xF0, 0x10, 0xF0, 0x80, 0xF0] ++ [0xF0, 0x10, 0xF0, 0x10, 0xF0] ++
  [0x90, 0x90, 0xF0, 0x10, 0x10] ++ [0xF0, 0x80, 0xF0, 0x10, 0xF0] ++
  [0xF0, 0x80, 0xF0, 0x90, 0xF0] ++ [0xF0, 0x10, 0x20, 0x40, 0x40] ++
  [0xF0, 0x90, 0xF0, 0x90, 0xF0] ++ [0xF0, 0x90, 0xF0, 0x10, 0xF0] ++
  [0xF0, 0x90, 0xF0, 0x90, 0x90] ++ [0xE0, 0x90, 0xE0, 0x90, 0xE0] ++
  [0xF0, 0x80, 0x80, 0x80, 0xF0] ++ [0xE0, 0x90, 0x90, 0x90, 0xE0] ++
  [0xF0, 0x80, 0xF0, 0x80, 0xF0] ++ [0xF0, 0x80, 0xF0, 0x80, 0x80]

/-- What a byte of M holds after a reset with the default font and an empty ROM (R41, R52); it is also what an address
that the memory list does not hold reads as. -/
def Config.resetByte (a : Nat) : Byte :=
  if fontBase ≤ a ∧ a < fontBase + fontSize then defaultFont.getD (a - fontBase) 0 else 0

/-- The order in which one of several held keys is chosen (R201). -/
def Config.keyPriority : List Nibble :=
  [0x1, 0x2, 0x3, 0xC, 0x4, 0x5, 0x6, 0xD, 0x7, 0x8, 0x9, 0xE, 0xA, 0x0, 0xB, 0xF]

/-- FREE VALUE (log 1): how many TimerTicks the environment issues before a Step that no script settles (R197, D4). -/
opaque Config.freeTicks : Nat → Nat

/-- FREE VALUE (log 1): the keys held at a Step that no script settles (R200, R201, D13). -/
opaque Config.freeKeys : Nat → BitVec 16

/-- FREE VALUE (log 1): the random byte of a Step that no script settles (R202, D12). -/
opaque Config.freeRnd : Nat → Byte

/-- Everything a halted core holds beside its HALT record; `memBytes` are the contents of M from address 0 on, and a
`waitReg` stands for WAITKEY. -/
structure HaltedRest where
  v        : Vector Byte 16
  i        : Word
  pc       : Addr
  sp       : Fin 17
  stk      : Vector Addr 16
  dt       : Byte
  st       : Byte
  fb       : Framebuffer
  memBytes : List Byte
  waitReg  : Option Nibble
deriving DecidableEq, Repr, Inhabited

/-- FREE VALUE (log 2): the state beside the HALT record after a fatal fault, of which the spec defines nothing
(R184, U12, D9). -/
opaque Config.haltedRest : Nat → HaltedRest

end Sys2Proof
end

