-- ==== Sys2Proof/Machine/State.lean ====
section
/-! DEFINITION. The state of the core (spec/10_state.md R20), memory's canonical form, the reasons a step can stop, and the
state after reset (R41). -/

namespace Sys2Proof.Machine

/-- The kinds of fatal fault (R182). -/
inductive FatalKind where
  | fetchBounds
  | readBounds
  | writeBounds
  | stackOverflow
  | stackUnderflow
deriving DecidableEq, Repr

/-- The numeric codes of R182 (D8; log 9). -/
def FatalKind.code : FatalKind → Nat
  | .fetchBounds => 1
  | .readBounds => 2
  | .writeBounds => 3
  | .stackOverflow => 4
  | .stackUnderflow => 5

/-- What HALT records of a fatal fault (R38, R183): the kind, the fetch address of the faulting instruction and its word
(for a fetch fault, no word). -/
structure FaultRecord where
  kind : FatalKind
  addr : Addr
  op   : Option Word
deriving DecidableEq, Repr

/-- A `diag` event (R40, R186): the fetch address and the word of an unknown encoding. -/
structure Diag where
  addr : Addr
  op   : Word
deriving DecidableEq, Repr

/-- The run/wait state (R37). -/
inductive WaitState where
  | run
  | waitKey (x : Nibble)
deriving DecidableEq, Repr

/-- M as the list of the cells that differ from their reset contents, by strictly rising address (R35, R41). -/
abbrev Memory := List Host.Cell

/-- The canonical form of the cells from the address `lo` on: strictly rising addresses inside [0, 4095] (R50), no cell
equal to what an unlisted address reads as. -/
def Memory.wfFrom (lo : Nat) : Memory → Bool
  | [] => true
  | (a, v) :: m => decide (lo ≤ a) && decide (a < Config.memSize) && decide (v ≠ Config.resetByte a) && Memory.wfFrom (a + 1) m

/-- The canonical form of memory. -/
def Memory.wf (m : Memory) : Bool := Memory.wfFrom 0 m

/-- The MODEL's own fields, none of them the spec's (log 1): what the environment has settled on and what the core has
shown it. -/
structure Env where
  /-- the events the environment has already settled on, oldest first (R205) -/
  script   : List Event
  /-- the input `keys_held` of the Step now running (R39, R201) -/
  keysHeld : BitVec 16
  /-- the input `rnd` of the Step now running (R39, R202) -/
  rnd      : Byte
  /-- how many free values have been drawn -/
  drawn    : Nat
  /-- the `diag` events emitted so far, oldest first (R40, R186) -/
  diag     : List Diag
deriving DecidableEq, Repr

/-- The architectural state (R20), and the environment's side of the boundary. -/
structure State where
  /-- V0 to VF (R21); VF is the flag register (R22) -/
  v    : Vector Byte 16
  /-- the address register I (R24) -/
  i    : Word
  /-- the program counter (R25) -/
  pc   : Addr
  /-- SP, the number of stack entries in use (R27) -/
  sp   : Fin 17
  /-- the stack slots S[0] to S[15] (R27) -/
  stk  : Vector Addr 16
  /-- the delay timer (R32) -/
  dt   : Byte
  /-- the sound timer (R32) -/
  st   : Byte
  /-- the framebuffer (R34) -/
  fb   : Framebuffer
  /-- the memory M (R35) -/
  mem  : Memory
  /-- WAIT (R37) -/
  wait : WaitState
  /-- HALT (R38); `none` is the spec's NONE -/
  halt : Option FaultRecord
  /-- the model's own fields -/
  env  : Env
deriving DecidableEq, Repr

/-- Why the machine stops. -/
inductive Fault where
  /-- Raised by `applyEvent` (hence `step`) for a Step or a TimerTick offered to a halted core: no transition exists (R184, R205,
  U13). Safe: nothing is claimed of what would follow (log 4). -/
  | halted (r : FaultRecord)
deriving DecidableEq, Repr

/-- Why the model gives no meaning. -/
inductive Refusal where
  /-- Raised by `exec` for an instruction that has no meaning yet (none at present). Safe. -/
  | notModelled (mnemonic : String)
  /-- Raised by `applyEvent` (hence `step`) for a Reset whose ROM is longer than 3584 bytes or whose font is not 80 bytes
  (R222, U14, U15). Safe: the spec excludes the case (log 12). -/
  | resetPrecondition
deriving DecidableEq, Repr

/-- The model's own fields at reset (log 1). -/
def Env.initial : Env := { script := [], keysHeld := 0, rnd := 0, drawn := 0, diag := [] }

/-- The state right after reset with the default font and an empty ROM image (R41, R220). -/
def State.reset : State where
  v    := Vector.replicate 16 0
  i    := 0
  pc   := 0x200
  sp   := 0
  stk  := Vector.replicate 16 0
  dt   := 0
  st   := 0
  fb   := Vector.replicate 32 (Vector.replicate 64 false)
  mem  := []
  wait := .run
  halt := none
  env  := Env.initial

end Sys2Proof.Machine
end

