-- ==== Sys2Proof/WellFormed.lean ====
section
/-! DEFINITION. Well-formedness. The widths of an instruction's fields are carried by their types and the table gives no
row a forbidden operand value (R72, R82), so every term of `Instr` is well-formed; the checks that can fail are those of
a Reset event, whose precondition the spec states (R220, R222). -/

namespace Sys2Proof

/-- Every operand value of every row is legal (R79, R81, R82): no register number, count, immediate or address is
reserved. -/
def Instr.wellFormed : Instr → Bool
  | .cls | .ret | .jpNnn _ | .callNnn _ | .seVxKk _ _ | .sneVxKk _ _ | .seVxVy _ _ | .ldVxKk _ _ | .addVxKk _ _
  | .ldVxVy _ _ | .orVxVy _ _ | .andVxVy _ _ | .xorVxVy _ _ | .addVxVy _ _ | .subVxVy _ _ | .shrVx _ _
  | .subnVxVy _ _ | .shlVx _ _ | .sneVxVy _ _ | .ldINnn _ | .jpV0Nnn _ | .rndVxKk _ _ | .drwVxVyN _ _ _
  | .skpVx _ | .sknpVx _ | .ldVxDt _ | .ldVxK _ | .ldDtVx _ | .ldStVx _ | .addIVx _ | .ldFVx _ | .ldBVx _
  | .ldMemIVx _ | .ldVxMemI _ => true

/-- The ROM image fits the program area: "at most 3584 bytes" (R222). -/
def romFits (rom : List Byte) : Bool := rom.length ≤ Config.romMax

/-- The font table has its 80 bytes (R53, R220). -/
def fontFits (font : List Byte) : Bool := font.length == Config.fontSize

/-- The precondition of an event: only Reset has one (R205, R220). -/
def Event.wellFormed : Event → Bool
  | .reset rom font => romFits rom && fontFits font
  | .timerTick => true
  | .step _ _ => true

end Sys2Proof
end

