-- ==== Sys2Proof/Machine/Ops.lean ====
section
/-! DEFINITION. The shared operations: memory (spec/20_memory.md), the stack and the outputs (spec/10_state.md), the
framebuffer (spec/43_display.md), raising a fault and the timers (spec/60_exceptions.md), reset (spec/70_reset_and_hazards.md). -/

namespace Sys2Proof.Machine

/-! ### Memory -/

/-- The byte at an address: an unlisted address holds its reset contents (R35, R41). -/
def Memory.read : Memory → Nat → Byte
  | [], a => Config.resetByte a
  | (b, v) :: m, a => if b = a then v else Memory.read m a

/-- The memory without a cell for the address `a`. -/
def Memory.drop (a : Nat) : Memory → Memory
  | [] => []
  | (b, v) :: m => if b = a then Memory.drop a m else (b, v) :: Memory.drop a m

/-- The memory with the cell `(a, w)`, in its place. -/
def Memory.put (a : Nat) (w : Byte) : Memory → Memory
  | [] => [(a, w)]
  | (b, v) :: m =>
    if a < b then (a, w) :: (b, v) :: m
    else if b = a then (a, w) :: m
    else (b, v) :: Memory.put a w m

/-- `M[a] <- w`, keeping the canonical form. -/
def Memory.write (m : Memory) (a : Nat) (w : Byte) : Memory :=
  if w = Config.resetByte a then Memory.drop a m else Memory.put a w m

/-- The bytes of `src` written to `M[dst]`, `M[dst + 1]`, ... with no check. -/
def Memory.writeBytes (m : Memory) (dst : Nat) : List Byte → Memory
  | [] => m
  | b :: bs => Memory.writeBytes (m.write dst b) (dst + 1) bs

/-- `write_slice(dst, src)`: fails if the range leaves [0, 4095], and then writes nothing (R58). -/
def Memory.writeSlice (m : Memory) (dst : Nat) (src : List Byte) : Option Memory :=
  if dst + src.length ≤ Config.memSize then some (m.writeBytes dst src) else none

/-- `Fetch2(a)` (R55): the byte at `a` is the high one (R59). -/
def fetch2 (m : Memory) (a : Nat) : Except FatalKind Word :=
  if a > 4094 then .error .fetchBounds else .ok (wordOfBytes (m.read a) (m.read (a + 1)))

/-- `MemRead(a, 1)` (R56). -/
def memRead (m : Memory) (a : Nat) : Except FatalKind Byte :=
  if a > 4095 then .error .readBounds else .ok (m.read a)

/-- `MemWrite(a, 1, w)` (R57). -/
def memWrite (m : Memory) (a : Nat) (w : Byte) : Except FatalKind Memory :=
  if a > 4095 then .error .writeBounds else .ok (m.write a w)

/-- `count` bytes read at ascending addresses, the first one out of range raising the fault (R60, R187). -/
def readBlock (m : Memory) (a : Nat) : Nat → Except FatalKind (List Byte)
  | 0 => .ok []
  | count + 1 =>
    match memRead m a with
    | .error k => .error k
    | .ok b =>
      match readBlock m (a + 1) count with
      | .error k => .error k
      | .ok bs => .ok (b :: bs)

/-- The bytes written at ascending addresses, the first one out of range raising the fault (R60, R187). -/
def writeBlock (m : Memory) (a : Nat) : List Byte → Except FatalKind Memory
  | [] => .ok m
  | b :: bs =>
    match memWrite m a b with
    | .error k => .error k
    | .ok m' => writeBlock m' (a + 1) bs

/-! ### Fields of the state -/

/-- `PC <- a`. -/
def State.setPc (s : State) (a : Addr) : State := { s with pc := a }
/-- `I <- w`. -/
def State.setI (s : State) (w : Word) : State := { s with i := w }
/-- `DT <- b`. -/
def State.setDt (s : State) (b : Byte) : State := { s with dt := b }
/-- `ST <- b`. -/
def State.setSt (s : State) (b : Byte) : State := { s with st := b }
/-- The framebuffer replaced. -/
def State.setFb (s : State) (f : Framebuffer) : State := { s with fb := f }
/-- The memory replaced. -/
def State.setMem (s : State) (m : Memory) : State := { s with mem := m }
/-- `WAIT <- w`. -/
def State.setWait (s : State) (w : WaitState) : State := { s with wait := w }
/-- The general registers replaced. -/
def State.setV (s : State) (v : Vector Byte 16) : State := { s with v := v }
/-- The model's own fields replaced. -/
def State.setEnv (s : State) (e : Env) : State := { s with env := e }

/-- The byte of M at an address, as the statements about memory read it. -/
def State.byteAt (s : State) (a : Nat) : Byte := s.mem.read a

/-! ### Program counter -/

/-- The post-fetch advance `PC <- (PC + 2) mod 4096` (R26, R74; D2, log 5). -/
def State.advance (s : State) : State := s.setPc (s.pc + 2)

/-- `Skip()`: `PC <- (PC + 2) mod 4096` (R100; D2, log 5). -/
def State.skip (s : State) : State := s.setPc (s.pc + 2)

/-- `Skip()` when the condition holds. -/
def State.skipIf (s : State) (c : Bool) : State := if c then s.skip else s

/-- The fetch address of the instruction now executing: PC already holds it plus 2 (R25, R74; log 9). -/
def State.fetchAddr (s : State) : Addr := s.pc - 2

/-! ### Stack -/

/-- `Push(a)` (R30). On overflow nothing is written. -/
def push (a : Addr) (s : State) : Except FatalKind State :=
  if h : s.sp.val < 16 then
    .ok { s with stk := s.stk.set s.sp.val a h, sp := ⟨s.sp.val + 1, by omega⟩ }
  else .error .stackOverflow

/-- `Pop()` (R31): the popped address and the state after. On underflow nothing is written; the popped slot keeps its
contents (R28). -/
def pop (s : State) : Except FatalKind (Addr × State) :=
  if h : s.sp.val = 0 then .error .stackUnderflow
  else .ok (s.stk[s.sp.val - 1]'(by have := s.sp.isLt; omega), { s with sp := ⟨s.sp.val - 1, by omega⟩ })

/-! ### Framebuffer -/

/-- `FB[x, y]`, off outside the grid (R34). -/
def pixel (f : Framebuffer) (x y : Nat) : Bool :=
  if h : x < 64 ∧ y < 32 then (f[y]'h.2)[x]'h.1 else false

/-- `FbClear()` (R150). -/
def fbClear : Framebuffer := Vector.replicate 32 (Vector.replicate 64 false)

/-- `XorPlot(x, y, bit)` (R151): the framebuffer after, and the collision bit. -/
def xorPlot (f : Framebuffer) (x y : Nat) (bit : Bool) : Framebuffer × Bool :=
  if h : x < 64 ∧ y < 32 then
    if bit then
      let old := (f[y]'h.2)[x]'h.1
      (f.set y ((f[y]'h.2).set x (!old) h.1) h.2, old)
    else (f, false)
  else (f, false)

/-- The bits of one sprite row plotted from column `x` on, leftmost first (R153). -/
def plotBits (f : Framebuffer) (x y : Nat) : List Bool → Framebuffer × Bool
  | [] => (f, false)
  | bit :: bits =>
    let p := xorPlot f x y bit
    let q := plotBits p.1 (x + 1) y bits
    (q.1, p.2 || q.2)

/-- The eight bits of a sprite byte, the most significant first (R153). -/
def spriteBits (b : Byte) : List Bool :=
  [b.getLsbD 7, b.getLsbD 6, b.getLsbD 5, b.getLsbD 4, b.getLsbD 3, b.getLsbD 2, b.getLsbD 1, b.getLsbD 0]

/-- The rows of a sprite plotted from row `y` down, and whether any on pixel was turned off (R153). -/
def plotRows (f : Framebuffer) (x y : Nat) : List Byte → Framebuffer × Bool
  | [] => (f, false)
  | b :: bs =>
    let p := plotBits f x y (spriteBits b)
    let q := plotRows p.1 x (y + 1) bs
    (q.1, p.2 || q.2)

/-! ### Faults -/

/-- What `raise` can be given (R181, R182): a fatal fault with its record, or the recoverable one with its fetch address
and word. -/
inductive Raised where
  | fatal (r : FaultRecord)
  | unimplementedOpcode (addr : Addr) (op : Word)
deriving DecidableEq, Repr

/-- The numeric code of a raised fault (R182; D8, log 9). -/
def Raised.code : Raised → Nat
  | .fatal r => r.kind.code
  | .unimplementedOpcode _ _ => 6

/-- WAIT as the free values give it. -/
def haltedWait (waitReg : Option Nibble) : WaitState :=
  match waitReg with
  | none => .run
  | some x => .waitKey x

/-- Fatal fault entry (R184): HALT latches the record. Of the rest of the state the spec defines nothing, so every other
architectural field takes a free value (U12, D9; log 2). -/
def latchHalt (r : FaultRecord) (s : State) : State :=
  let h := Config.haltedRest s.env.drawn
  { v := h.v, i := h.i, pc := h.pc, sp := h.sp, stk := h.stk, dt := h.dt, st := h.st, fb := h.fb,
    mem := Memory.writeBytes [] 0 (h.memBytes.take Config.memSize),
    wait := haltedWait h.waitReg,
    halt := some r,
    env := { s.env with drawn := s.env.drawn + 1 } }

/-- The recoverable fault (R186): one `diag` event, and nothing else changes. -/
def emitDiag (addr : Addr) (op : Word) (s : State) : State :=
  s.setEnv { s.env with diag := s.env.diag ++ [⟨addr, op⟩] }

/-- `raise F(info)` (R181): the one operation by which every fault is taken. There is no handler and no return from it
(R189): the recoverable fault goes on by itself, and a halted core is left only by Reset. -/
def takeFault (f : Raised) (s : State) : State :=
  match f with
  | .fatal r => latchHalt r s
  | .unimplementedOpcode addr op => emitDiag addr op s

/-- The end of an instruction that may have raised a fatal fault: the record holds the fetch address and the instruction's
word (R183; log 9). -/
def endInstr (ins : Instr) (s : State) : Except FatalKind State → State
  | .ok t => t
  | .error k => takeFault (.fatal ⟨k, s.fetchAddr, some (encode ins)⟩) s

/-! ### Timers -/

/-- One timer decremented if positive (R195). -/
def timerDown (t : Byte) : Byte := if t = 0 then 0 else t - 1

/-- `TimerTick()` (R195). -/
def timerTick (s : State) : State := { s with dt := timerDown s.dt, st := timerDown s.st }

/-- One timer after `n` decrements: it stays at 0 once there (R195). -/
def timerDownBy (n : Nat) (t : Byte) : Byte :=
  if t = 0 then 0 else if t.toNat ≤ n then 0 else t - BitVec.ofNat 8 n

/-- `n` TimerTicks in a row (R195, R197). -/
def timerTicks (n : Nat) (s : State) : State := { s with dt := timerDownBy n s.dt, st := timerDownBy n s.st }

/-! ### Reset -/

/-- `Reset(rom, font)` (R220, R222): every field of R20 is built from nothing; only the environment's side stays. A longer
ROM or a font of another length is outside the spec and refused (U14, U15; log 12). -/
def resetEvent (rom font : List Byte) (s : State) : Host.Outcome State Fault Refusal :=
  if Event.wellFormed (.reset rom font) then
    match Memory.writeSlice [] Config.fontBase font with
    | none => .refused .resetPrecondition
    | some m =>
      match m.writeSlice Config.progBase rom with
      | none => .refused .resetPrecondition
      | some m' => .next { State.reset with mem := m', env := s.env }
  else .refused .resetPrecondition

/-! ### Outputs (R40): functions of the state -/

/-- `fb_out` (R203). -/
def State.fbOut (s : State) : Framebuffer := s.fb
/-- `sound` (R204). -/
def State.sound (s : State) : Bool := s.st ≠ 0
/-- `halted` (R184). -/
def State.halted (s : State) : Option FaultRecord := s.halt
/-- `waiting` (R40, R163). -/
def State.waiting (s : State) : Bool := s.wait ≠ .run

end Sys2Proof.Machine
end

