-- ==== Sys2Proof/Machine/Operands.lean ====
section
/-! DEFINITION. The operand forms (spec/30_encoding.md R73): a register by number, an immediate, the address I + r, the
sampled key and the random byte. -/

namespace Sys2Proof.Machine

/-- `V[x]` (R21). -/
def State.reg (s : State) (x : Nibble) : Byte := s.v[x.toNat]'(x.isLt)

/-- `V[x] <- b` (R21): no register is hard-wired. -/
def State.setReg (s : State) (x : Nibble) (b : Byte) : State := s.setV (s.v.set x.toNat b x.isLt)

/-- The number of VF, the flag register (R22). -/
def vf : Nibble := 0xF

/-- A byte zero-extended to an address: the offset of `JP V0, nnn` (R108). -/
def zextAddr (b : Byte) : Addr := b.setWidth 12

/-- A byte zero-extended to 16 bits (R141). -/
def zextByte (b : Byte) : Word := b.setWidth 16

/-- `nnn` zero-extended to 16 bits (R73, R140). -/
def zextNnn (nnn : Addr) : Word := nnn.setWidth 16

/-- A key number as a byte (R162). -/
def keyByte (k : Nibble) : Byte := k.setWidth 8

/-- The effective address of byte `r`: the natural number I + r, not reduced (R61). -/
def State.ea (s : State) (r : Nat) : Nat := s.i.toNat + r

/-- The one key chosen among the held ones, by the fixed priority (R201). -/
def chooseKey (held : BitVec 16) : Option Nibble := Config.keyPriority.find? (fun k => held.getLsbD k.toNat)

/-- `KeySample()`: the key input of the current Step, or NONE (R200). -/
def State.keySample (s : State) : Option Nibble := chooseKey s.env.keysHeld

/-- `RandByte()`: the random input of the current Step (R202). -/
def State.randByte (s : State) : Byte := s.env.rnd

/-- The registers V0 to Vx, in order: what `LD [I], Vx` stores (R144). -/
def State.regsUpTo (s : State) (x : Nibble) : List Byte := s.v.toList.take (x.toNat + 1)

/-- The registers from number `r` on loaded from the bytes, in order: what `LD Vx, [I]` does from r = 0 (R145). -/
def loadRegs (v : Vector Byte 16) (r : Nat) : List Byte → Vector Byte 16
  | [] => v
  | b :: bs => if h : r < 16 then loadRegs (v.set r b h) (r + 1) bs else v

/-- The three decimal digits of a byte, hundreds first (R143). -/
def bcdDigits (b : Byte) : List Byte :=
  [BitVec.ofNat 8 (b.toNat / 100), BitVec.ofNat 8 (b.toNat / 10 % 10), BitVec.ofNat 8 (b.toNat % 10)]

end Sys2Proof.Machine
end

