-- ==== Sys2Proof/Machine/Flags.lean ====
section
/-! DEFINITION. The flag computations (spec/41_alu.md R120, R127 to R131; spec/43_display.md R153). VF is the only flag
(R22), it is always left 0 or 1, and it is written last (R120). -/

namespace Sys2Proof.Machine

/-- A flag as the byte VF holds. -/
def flagByte (c : Bool) : Byte := if c then 1 else 0

/-- The carry of an addition: the true sum exceeds 255 (R127). -/
def carryFlag (a b : Byte) : Bool := a.toNat + b.toNat > 255

/-- The no-borrow of `a - b` (R128, R130): set when a ≥ b, equality included. -/
def noBorrowFlag (a b : Byte) : Bool := a.toNat ≥ b.toNat

/-- The bit a right shift loses (R129). -/
def shrFlag (a : Byte) : Bool := a.getLsbD 0

/-- The bit a left shift loses (R131). -/
def shlFlag (a : Byte) : Bool := a.getLsbD 7

/-- The end of a flag-writing instruction (R120): the result into V[x], then the flag into VF, which therefore keeps the
flag when x is F. -/
def State.setRegFlag (s : State) (x : Nibble) (result : Byte) (flag : Bool) : State :=
  (s.setReg x result).setReg vf (flagByte flag)

end Sys2Proof.Machine
end

