-- ==== Sys2Proof/Machine/ControlFlow.lean ====
section
/-! DEFINITION. Control flow (spec/40_control_flow.md). On entry PC is the fetch address plus 2. -/

namespace Sys2Proof.Machine

/-- `RET` (R101): `PC <- Pop()`. -/
def execRet (s : State) : Host.Outcome State Fault Refusal :=
  .next (endInstr .ret s ((pop s).map (fun p => p.2.setPc p.1)))

/-- `JP nnn` (R102). -/
def execJpNnn (nnn : Addr) (s : State) : Host.Outcome State Fault Refusal :=
  .next (s.setPc nnn)

/-- `CALL nnn` (R103): `Push(PC)`, then `PC <- nnn`. -/
def execCallNnn (nnn : Addr) (s : State) : Host.Outcome State Fault Refusal :=
  .next (endInstr (.callNnn nnn) s ((push s.pc s).map (fun t => t.setPc nnn)))

/-- `SE Vx, kk` (R104). -/
def execSeVxKk (x : Nibble) (kk : Byte) (s : State) : Host.Outcome State Fault Refusal :=
  .next (s.skipIf (s.reg x == kk))

/-- `SNE Vx, kk` (R105). -/
def execSneVxKk (x : Nibble) (kk : Byte) (s : State) : Host.Outcome State Fault Refusal :=
  .next (s.skipIf (s.reg x != kk))

/-- `SE Vx, Vy` (R106). -/
def execSeVxVy (x y : Nibble) (s : State) : Host.Outcome State Fault Refusal :=
  .next (s.skipIf (s.reg x == s.reg y))

/-- `SNE Vx, Vy` (R107). -/
def execSneVxVy (x y : Nibble) (s : State) : Host.Outcome State Fault Refusal :=
  .next (s.skipIf (s.reg x != s.reg y))

/-- `JP V0, nnn` (R108): `PC <- (nnn + V[0]) mod 4096` (D2, log 5). -/
def execJpV0Nnn (nnn : Addr) (s : State) : Host.Outcome State Fault Refusal :=
  .next (s.setPc (nnn + zextAddr (s.reg 0)))

end Sys2Proof.Machine
end

