-- ==== Sys2Proof/Machine/Display.lean ====
section
/-! DEFINITION. The display instructions (spec/43_display.md). -/

namespace Sys2Proof.Machine

/-- `CLS` (R152). -/
def execCls (s : State) : Host.Outcome State Fault Refusal :=
  .next (s.setFb fbClear)

/-- The column of a sprite's left edge (R153). -/
def spriteCol (b : Byte) : Nat := b.toNat % Config.fbWidth

/-- The row of a sprite's top edge (R153). -/
def spriteRow (b : Byte) : Nat := b.toNat % Config.fbHeight

/-- `DRW Vx, Vy, n` (R153): the coordinates are read before VF is written (D7, log 8), every row's byte is read even when
the row is clipped, and VF is the collision. -/
def execDrwVxVyN (x y n : Nibble) (s : State) : Host.Outcome State Fault Refusal :=
  .next (endInstr (.drwVxVyN x y n) s ((readBlock s.mem (s.ea 0) n.toNat).map (fun bs =>
    let p := plotRows s.fb (spriteCol (s.reg x)) (spriteRow (s.reg y)) bs
    (s.setFb p.1).setReg vf (flagByte p.2))))

end Sys2Proof.Machine
end

