-- ==== Sys2Proof/Machine/IndexMemory.lean ====
section
/-! DEFINITION. The address register and the memory transfers (spec/42_index_memory.md). No transfer changes I. -/

namespace Sys2Proof.Machine

/-- `LD I, nnn` (R140). -/
def execLdINnn (nnn : Addr) (s : State) : Host.Outcome State Fault Refusal :=
  .next (s.setI (zextNnn nnn))

/-- `ADD I, Vx` (R141): modulo 65536, VF is not written. -/
def execAddIVx (x : Nibble) (s : State) : Host.Outcome State Fault Refusal :=
  .next (s.setI (s.i + zextByte (s.reg x)))

/-- `LD F, Vx` (R142): the glyph of the low digit of Vx. -/
def execLdFVx (x : Nibble) (s : State) : Host.Outcome State Fault Refusal :=
  .next (s.setI (BitVec.ofNat 16 (Config.fontBase + (s.reg x).toNat % 16 * 5)))

/-- `LD B, Vx` (R143): hundreds at I, tens at I + 1, ones at I + 2. -/
def execLdBVx (x : Nibble) (s : State) : Host.Outcome State Fault Refusal :=
  .next (endInstr (.ldBVx x) s ((writeBlock s.mem (s.ea 0) (bcdDigits (s.reg x))).map s.setMem))

/-- `LD [I], Vx` (R144): V0 to Vx stored from I on. -/
def execLdMemIVx (x : Nibble) (s : State) : Host.Outcome State Fault Refusal :=
  .next (endInstr (.ldMemIVx x) s ((writeBlock s.mem (s.ea 0) (s.regsUpTo x)).map s.setMem))

/-- `LD Vx, [I]` (R145): V0 to Vx loaded from I on. -/
def execLdVxMemI (x : Nibble) (s : State) : Host.Outcome State Fault Refusal :=
  .next (endInstr (.ldVxMemI x) s ((readBlock s.mem (s.ea 0) (x.toNat + 1)).map (fun bs => s.setV (loadRegs s.v 0 bs))))

end Sys2Proof.Machine
end

