-- ==== Sys2Proof/Machine/KeypadTimers.lean ====
section
/-! DEFINITION. The keypad and timer instructions, and the wait Step (spec/44_keypad_timers.md). -/

namespace Sys2Proof.Machine

/-- Whether the sampled key is the whole byte `b`: NONE equals no byte, and no key equals a byte above 0x0F (R160). -/
def State.keyIs (s : State) (b : Byte) : Bool :=
  match s.keySample with
  | some k => keyByte k == b
  | none => false

/-- `SKP Vx` (R160). -/
def execSkpVx (x : Nibble) (s : State) : Host.Outcome State Fault Refusal :=
  .next (s.skipIf (s.keyIs (s.reg x)))

/-- `SKNP Vx` (R161). -/
def execSknpVx (x : Nibble) (s : State) : Host.Outcome State Fault Refusal :=
  .next (s.skipIf (!s.keyIs (s.reg x)))

/-- `LD Vx, DT` (R164). -/
def execLdVxDt (x : Nibble) (s : State) : Host.Outcome State Fault Refusal :=
  .next (s.setReg x s.dt)

/-- `LD Vx, K` (R162): a held key completes it at once, else the core waits (D5, log 7). -/
def execLdVxK (x : Nibble) (s : State) : Host.Outcome State Fault Refusal :=
  .next (match s.keySample with
    | some k => s.setReg x (keyByte k)
    | none => s.setWait (.waitKey x))

/-- The Step in the wait state WAITKEY(x) (R163): it fetches nothing and samples the keypad once. -/
def stepWait (x : Nibble) (s : State) : State :=
  match s.keySample with
  | some k => (s.setReg x (keyByte k)).setWait .run
  | none => s

/-- `LD DT, Vx` (R165). -/
def execLdDtVx (x : Nibble) (s : State) : Host.Outcome State Fault Refusal :=
  .next (s.setDt (s.reg x))

/-- `LD ST, Vx` (R166). -/
def execLdStVx (x : Nibble) (s : State) : Host.Outcome State Fault Refusal :=
  .next (s.setSt (s.reg x))

end Sys2Proof.Machine
end

