-- ==== Sys2Proof/Machine/Events.lean ====
section
/-! DEFINITION. The events that drive the core (spec/60_exceptions.md R205, R206), the Step in the RUN state
(spec/30_encoding.md R74), and where the next event comes from (log 1). -/

namespace Sys2Proof.Machine

/-- The inputs of a Step presented to the core (R39, R205). -/
def State.latchInputs (s : State) (keysHeld : BitVec 16) (rnd : Byte) : State :=
  s.setEnv { s.env with keysHeld := keysHeld, rnd := rnd }

/-- `StepRun` (R74): fetch at PC, advance PC, then execute, or raise UnimplementedOpcode (R80). A fetch fault leaves no
opcode in its record (R182). -/
def stepRun (s : State) : Host.Outcome State Fault Refusal :=
  match fetch2 s.mem s.pc.toNat with
  | .error k => .next (takeFault (.fatal ⟨k, s.pc, none⟩) s)
  | .ok op =>
    match decodeWord op with
    | .ok ins => exec ins s.advance
    | .error _ => .next (takeFault (.unimplementedOpcode s.pc op) s.advance)

/-- One event (R205). A halted core accepts no Step and no TimerTick (R184; log 4). -/
def applyEvent (e : Event) (s : State) : Host.Outcome State Fault Refusal :=
  match e with
  | .reset rom font => resetEvent rom font s
  | .timerTick =>
    match s.halt with
    | some r => .fault (.halted r)
    | none => .next (timerTick s)
  | .step keysHeld rnd =>
    match s.halt with
    | some r => .fault (.halted r)
    | none =>
      match s.wait with
      | .waitKey x => .next (stepWait x (s.latchInputs keysHeld rnd))
      | .run => stepRun (s.latchInputs keysHeld rnd)

/-- A schedule of events, one after the other, up to the first that stops the machine (R205). -/
def applyEvents : List Event → State → Host.Outcome State Fault Refusal
  | [], s => .next s
  | e :: es, s =>
    match applyEvent e s with
    | .next t => applyEvents es t
    | .fault r => .fault r
    | .refused r => .refused r

/-- The reference tick (R206): a TimerTick, then a Step. -/
def tick (keysHeld : BitVec 16) (rnd : Byte) (s : State) : Host.Outcome State Fault Refusal :=
  applyEvents [.timerTick, .step keysHeld rnd] s

/-- The script after its first event has been taken. -/
def State.setScript (s : State) (es : List Event) : State := s.setEnv { s.env with script := es }

/-- One free value drawn. -/
def State.drawOne (s : State) : State := s.setEnv { s.env with drawn := s.env.drawn + 1 }

/-- What the environment does where no script settles it (log 1): any number of TimerTicks (R197), then a Step with any
keys and any random byte (R200, R202). -/
def freeRound (s : State) : Host.Outcome State Fault Refusal :=
  applyEvent (.step (Config.freeKeys s.env.drawn) (Config.freeRnd s.env.drawn))
    (timerTicks (Config.freeTicks s.env.drawn) s.drawOne)

/-- The next event: the script's first, or a free round when the script is empty. -/
def nextEvent (s : State) : Host.Outcome State Fault Refusal :=
  match s.env.script with
  | e :: es => applyEvent e (s.setScript es)
  | [] => freeRound s

/-- A state ready to run the word `op` at its very next step (log 13): the word lies at PC (at 0x200 if nothing can be
fetched at PC), the core is neither halted nor waiting, and the next event is a Step with the inputs as they stand. -/
def placeWord (s : State) (op : Word) : State :=
  let a : Addr := if s.pc = 0xFFF then 0x200 else s.pc
  { s with
    pc := a
    mem := (s.mem.write a.toNat (highByte op)).write (a.toNat + 1) (lowByte op)
    wait := .run
    halt := none
    env := { s.env with script := .step s.env.keysHeld s.env.rnd :: s.env.script } }

end Sys2Proof.Machine
end

