-- ==== Sys2Proof/Machine/Step.lean ====
section
/-! DEFINITION. One step of the machine: the next event (spec/60_exceptions.md R205). -/

namespace Sys2Proof.Machine

/-- One step (Events.lean says where its event comes from). -/
def step (s : State) : Host.Outcome State Fault Refusal := nextEvent s

/-- The state with the table's word stored where the next step fetches, ready to run it (log 13). -/
def State.withFetchWord (s : State) (nbits w : Nat) : State := placeWord s (wordOfTable nbits w)

end Sys2Proof.Machine
end

