-- ==== Sys2Proof/Safety.lean ====
section
/-! DEFINITION. The terms in which claims are made: a running core, frames, the legality of a fault record, the invariant,
what a sprite covers. -/

namespace Sys2Proof.Machine

/-- The core runs: no fatal fault has stopped it (R184: a halted state is never a success). -/
def Running (s : State) : Prop := s.halt = none

/-- The core is about to fetch: it is not halted and not waiting (R74). -/
def ReadyToFetch (s : State) : Prop := s.halt = none ∧ s.wait = .run

/-- The program has finished, as D20 suggests reading it: PC points at a `JP` to itself (R207). -/
def AtSelfJump (s : State) : Prop := fetch2 s.mem s.pc.toNat = .ok (encode (.jpNnn s.pc))

/-- The parts of the state a frame can except, beside the registers it names. -/
inductive Part where
  | pc
  | i
  | stack
  | dt
  | st
  | fb
  | mem
  | wait
deriving DecidableEq, Repr

/-- The frame: from `s` to `t` nothing has changed but the general registers of `regs` and the parts of `parts`. HALT and the
environment's side never change; memory is compared byte by byte. -/
structure Keeps (regs : List Nibble) (parts : List Part) (s t : State) : Prop where
  reg   : ∀ r, r ∉ regs → t.reg r = s.reg r
  pc    : Part.pc ∉ parts → t.pc = s.pc
  i     : Part.i ∉ parts → t.i = s.i
  stack : Part.stack ∉ parts → t.sp = s.sp ∧ t.stk = s.stk
  dt    : Part.dt ∉ parts → t.dt = s.dt
  st    : Part.st ∉ parts → t.st = s.st
  fb    : Part.fb ∉ parts → t.fb = s.fb
  mem   : Part.mem ∉ parts → ∀ a, t.byteAt a = s.byteAt a
  wait  : Part.wait ∉ parts → t.wait = s.wait
  halt  : t.halt = s.halt
  env   : t.env = s.env

/-- The kind of fatal fault an instruction can raise, if any (R182): the other 28 instructions raise none. -/
def faultOf : Instr → Option FatalKind
  | .drwVxVyN _ _ _ => some .readBounds
  | .ldVxMemI _ => some .readBounds
  | .ldBVx _ => some .writeBounds
  | .ldMemIVx _ => some .writeBounds
  | .callNnn _ => some .stackOverflow
  | .ret => some .stackUnderflow
  | .cls | .jpNnn _ | .seVxKk _ _ | .sneVxKk _ _ | .seVxVy _ _ | .ldVxKk _ _ | .addVxKk _ _ | .ldVxVy _ _
  | .orVxVy _ _ | .andVxVy _ _ | .xorVxVy _ _ | .addVxVy _ _ | .subVxVy _ _ | .shrVx _ _ | .subnVxVy _ _
  | .shlVx _ _ | .sneVxVy _ _ | .ldINnn _ | .jpV0Nnn _ | .rndVxKk _ _ | .skpVx _ | .sknpVx _ | .ldVxDt _
  | .ldVxK _ | .ldDtVx _ | .ldStVx _ | .addIVx _ | .ldFVx _ => none

/-- A legal HALT record (R38, R182, R183): a fetch fault has no opcode and address 0xFFF; any other fault has the word of an
instruction that can raise its kind. -/
def LegalRecord (r : FaultRecord) : Prop :=
  (r.op = none → r.kind = .fetchBounds ∧ r.addr = 0xFFF) ∧
  (∀ w, r.op = some w → ∃ ins, decodeWord w = .ok ins ∧ faultOf ins = some r.kind)

/-- The invariant of the machine: memory is in its canonical form, and a HALT record is legal. -/
def CanonicalAndLegal (s : State) : Prop := s.mem.wf = true ∧ ∀ r, s.halt = some r → LegalRecord r

/-- Whether the sprite of `n` rows read from I, with its top-left pixel at column `x0` and row `y0`, has a 1 bit at column
`px` and row `py` (R153): row `py - y0`, most significant bit leftmost. -/
def spriteBitAt (s : State) (x0 y0 n px py : Nat) : Bool :=
  decide (x0 ≤ px ∧ px < x0 + 8 ∧ y0 ≤ py ∧ py < y0 + n) && (s.byteAt (s.ea (py - y0))).getLsbD (7 - (px - x0))

/-- All the bytes of a transfer of `count` bytes from I lie in M (R61): none does when none is moved. -/
def InBounds (s : State) (count : Nat) : Prop := count = 0 ∨ s.i.toNat + count ≤ 4096

/-- The instructions that write VF whatever their operands (R22). -/
def writesFlag : Instr → Bool
  | .addVxVy _ _ | .subVxVy _ _ | .shrVx _ _ | .subnVxVy _ _ | .shlVx _ _ | .drwVxVyN _ _ _ => true
  | .cls | .ret | .jpNnn _ | .callNnn _ | .seVxKk _ _ | .sneVxKk _ _ | .seVxVy _ _ | .ldVxKk _ _ | .addVxKk _ _
  | .ldVxVy _ _ | .orVxVy _ _ | .andVxVy _ _ | .xorVxVy _ _ | .sneVxVy _ _ | .ldINnn _ | .jpV0Nnn _
  | .rndVxKk _ _ | .skpVx _ | .sknpVx _ | .ldVxDt _ | .ldVxK _ | .ldDtVx _ | .ldStVx _ | .addIVx _ | .ldFVx _
  | .ldBVx _ | .ldMemIVx _ | .ldVxMemI _ => false

/-- The instructions that sample the keypad (R200). -/
def readsKey : Instr → Bool
  | .skpVx _ | .sknpVx _ | .ldVxK _ => true
  | .cls | .ret | .jpNnn _ | .callNnn _ | .seVxKk _ _ | .sneVxKk _ _ | .seVxVy _ _ | .ldVxKk _ _ | .addVxKk _ _
  | .ldVxVy _ _ | .orVxVy _ _ | .andVxVy _ _ | .xorVxVy _ _ | .addVxVy _ _ | .subVxVy _ _ | .shrVx _ _
  | .subnVxVy _ _ | .shlVx _ _ | .sneVxVy _ _ | .ldINnn _ | .jpV0Nnn _ | .rndVxKk _ _ | .drwVxVyN _ _ _
  | .ldVxDt _ | .ldDtVx _ | .ldStVx _ | .addIVx _ | .ldFVx _ | .ldBVx _ | .ldMemIVx _ | .ldVxMemI _ => false

end Sys2Proof.Machine
end

