-- ==== Sys2Proof/Certificates/Slice0/Obligations.lean ====
section
/-! DEFINITION. The statements for the provers. Each docstring names the rule or the section of spec/ it rests on; where
it rests on a decision the spec marks as its own (spec/92_eei_decisions.md) or on a choice of the model, it says so and
names the log entry. -/

open Sys2Proof Sys2Proof.Machine

/-! ### Encoding -/

/-- Words written out from R79's patterns decode to the instruction they stand for, and words next to them are rejected
(R78, R80; that 01E0 and 5121 are rejected is the exact match, the spec's decision D3, log 6). -/
def Obligations.SpecWordsDecodeAsListed : Prop :=
  decodeWord 0x00E0 = .ok .cls ∧ decodeWord 0x00EE = .ok .ret ∧ decodeWord 0x2ABC = .ok (.callNnn 0xABC) ∧
  decodeWord 0x34C5 = .ok (.seVxKk 0x4 0xC5) ∧ decodeWord 0x8AB5 = .ok (.subVxVy 0xA 0xB) ∧
  decodeWord 0xB234 = .ok (.jpV0Nnn 0x234) ∧ decodeWord 0xD125 = .ok (.drwVxVyN 0x1 0x2 0x5) ∧
  decodeWord 0xEA9E = .ok (.skpVx 0xA) ∧ decodeWord 0xF355 = .ok (.ldMemIVx 0x3) ∧ decodeWord 0xF765 = .ok (.ldVxMemI 0x7) ∧
  decodeWord 0x01E0 = .error (.unknownEncoding 0x01E0) ∧ decodeWord 0x5121 = .error (.unknownEncoding 0x5121) ∧
  decodeWord 0x8AB8 = .error (.unknownEncoding 0x8AB8) ∧ decodeWord 0xF030 = .error (.unknownEncoding 0xF030)

/-- Every well-formed instruction is what its own bytes decode to, with every operand at every value, and the bytes after
it are left over (R59, R70, R79). -/
def Obligations.DecodeOfEncodeIsInstruction : Prop :=
  ∀ (i : Instr) (rest : List Byte), i.wellFormed = true →
    decode (encodeBytes i ++ rest) = .ok (i, rest) ∧ decodeWord (encode i) = .ok i

/-- A word that decodes is the encoding of what it decodes to: no bit of a word is lost, the unused `y` of SHR and SHL
included (R79, R82; that a word which matches no row exactly does not decode is the spec's decision D3, log 6). -/
def Obligations.EncodeOfDecodeIsWord : Prop :=
  ∀ (w : Word) (i : Instr), decodeWord w = .ok i → encode i = w ∧ i.wellFormed = true

/-- The decoder accepts exactly the words of the opcode table, each as the instruction of its row; no word matches two
rows, and a word that matches none is rejected under its own name (R79, R80, R81; the exact match is the spec's decision
D3, log 6). -/
def Obligations.DecoderMatchesOpcodeTable : Prop :=
  ∀ w : Word,
    (∀ i, decodeWord w = .ok i → ∃ r ∈ opcodeTable, r.accepts w = true ∧ r.mnemonic = i.mnemonic) ∧
    (decodeWord w = .error (.unknownEncoding w) ↔ ∀ r ∈ opcodeTable, r.accepts w = false) ∧
    ((∃ i, decodeWord w = .ok i) ↔ ∃ r ∈ opcodeTable, r.accepts w = true) ∧
    (∀ r ∈ opcodeTable, ∀ r' ∈ opcodeTable, r.accepts w = true → r'.accepts w = true → r = r')

/-! ### The step and the events -/

/-- When a Step comes to a core that is neither halted nor waiting and the two bytes at PC decode to an instruction, the
step is that instruction's execution with PC advanced by 2 and the Step's inputs presented (R70, R74, R205; the wrap of PC
is the spec's decision D2, log 5, and that an odd PC is fetched from its decision D14, log 10); where no script settles the
next event, any number of timer ticks has come before it (the free values of log 1). -/
def Obligations.StepRunsDecodedInstruction : Prop :=
  ∀ (s : State) (i : Instr), s.halt = none → s.wait = .run → s.pc.toNat ≤ 4094 → i.wellFormed = true →
    decode [s.byteAt s.pc.toNat, s.byteAt (s.pc.toNat + 1)] = .ok (i, []) →
    (∀ k r es, s.env.script = .step k r :: es →
      step s = exec i { s with pc := s.pc + 2, env := { s.env with script := es, keysHeld := k, rnd := r } }) ∧
    (s.env.script = [] → ∃ ticks k r,
      step s = exec i { s with
        pc := s.pc + 2
        dt := BitVec.ofNat 8 (s.dt.toNat - ticks)
        st := BitVec.ofNat 8 (s.st.toNat - ticks)
        env := { s.env with keysHeld := k, rnd := r, drawn := s.env.drawn + 1 } })

/-- A word that matches no row is a 2-byte no-operation with one `diag` event that carries the fetch address and the word
(R80, R186; the event's form is the spec's decision D10, its place in a list log 16; that words such as 01E0 and 5121 match no
row is the spec's decision D3, log 6, the wrap of PC its decision D2, log 5, a fetch from an odd PC its decision D14,
log 10). -/
def Obligations.UnknownEncodingOnlyEmitsDiag : Prop :=
  ∀ (s : State) (w : Word) (k : BitVec 16) (r : Byte) (es : List Event),
    s.halt = none → s.wait = .run → s.pc.toNat ≤ 4094 → s.env.script = .step k r :: es →
    wordOfBytes (s.byteAt s.pc.toNat) (s.byteAt (s.pc.toNat + 1)) = w → (∀ row ∈ opcodeTable, row.accepts w = false) →
    step s = .next { s with
      pc := s.pc + 2
      env := { s.env with script := es, keysHeld := k, rnd := r, diag := s.env.diag ++ [⟨s.pc, w⟩] } }

/-- A Step with PC = 0xFFF halts with FetchBounds, the fetch address and no opcode (R55, R182, R184; the record's form is the
spec's decision D8, log 9). -/
def Obligations.FetchAtTopLatchesFetchBounds : Prop :=
  ∀ (s : State) (k : BitVec 16) (r : Byte) (es : List Event),
    s.halt = none → s.wait = .run → s.pc = 0xFFF → s.env.script = .step k r :: es →
    ∃ t, step s = .next t ∧ t.halt = some ⟨.fetchBounds, 0xFFF, none⟩

/-- A halted core accepts no Step and no TimerTick, and no free round; a legal Reset is accepted and ends the halt (R38,
R184, R205; that the two refused events end in a fault of the machine is the model's rendering of "stuck", log 4; WAIT = RUN
and HALT = NONE after a Reset, R41 and R220, are the spec's decision D19, log 18). -/
def Obligations.HaltedCoreAcceptsOnlyReset : Prop :=
  ∀ (s : State) (rec : FaultRecord), s.halt = some rec →
    (∀ k r es, s.env.script = .step k r :: es → step s = .fault (.halted rec)) ∧
    (∀ es, s.env.script = .timerTick :: es → step s = .fault (.halted rec)) ∧
    (s.env.script = [] → step s = .fault (.halted rec)) ∧
    (∀ rom font es, s.env.script = .reset rom font :: es → rom.length ≤ 3584 → font.length = 80 →
      ∃ t, step s = .next t ∧ t.halt = none ∧ t.wait = .run)

/-- Reset builds every piece of state from nothing, with the font at 0x050 and the ROM image at 0x200, whatever the state
was before; only the environment's side, the model's own (logs 1 and 16), goes on (R41, R220, R222; WAIT = RUN, HALT = NONE,
the zeros beyond the ROM and a Reset at any time are the spec's decision D19, log 18). -/
def Obligations.ResetBuildsStateFromNothing : Prop :=
  ∀ (s : State) (rom font : List Byte) (es : List Event), s.env.script = .reset rom font :: es →
    rom.length ≤ 3584 → font.length = 80 →
    ∃ t, step s = .next t ∧
      (∀ x, t.reg x = 0) ∧ t.i = 0 ∧ t.pc = 0x200 ∧ t.sp = 0 ∧ (∀ k : Fin 16, t.stk[k] = 0) ∧ t.dt = 0 ∧ t.st = 0 ∧
      (∀ x y, pixel t.fb x y = false) ∧ t.wait = .run ∧ t.halt = none ∧
      (∀ a, t.byteAt a =
        if 0x050 ≤ a ∧ a < 0x0A0 then font.getD (a - 0x050) 0
        else if 0x200 ≤ a ∧ a < 0x200 + rom.length then rom.getD (a - 0x200) 0
        else 0) ∧
      t.env = { s.env with script := es }

/-- A Reset with a longer ROM or a font of another length is refused (R222; U14 and U15 of spec/93 ask for a refusal). -/
def Obligations.ResetOutsidePreconditionIsRefused : Prop :=
  ∀ (s : State) (rom font : List Byte) (es : List Event), s.env.script = .reset rom font :: es →
    (3584 < rom.length ∨ font.length ≠ 80) → step s = .refused .resetPrecondition

/-- The state after reset with an empty ROM: every value of R41's table; of the font only glyph 0, the one the source
gives (R54), and zero outside the font region. WAIT = RUN and HALT = NONE are marked in that table as the spec's decision
D19 (log 18). -/
def Obligations.ResetStateHasSpecValues : Prop :=
  (∀ x, State.reset.reg x = 0) ∧ State.reset.i = 0 ∧ State.reset.pc = 0x200 ∧ State.reset.sp = 0 ∧
  (∀ k : Fin 16, State.reset.stk[k] = 0) ∧ State.reset.dt = 0 ∧ State.reset.st = 0 ∧
  (∀ x y, pixel State.reset.fb x y = false) ∧ State.reset.wait = .run ∧ State.reset.halt = none ∧
  State.reset.byteAt 0x050 = 0xF0 ∧ State.reset.byteAt 0x051 = 0x90 ∧ State.reset.byteAt 0x052 = 0x90 ∧
  State.reset.byteAt 0x053 = 0x90 ∧ State.reset.byteAt 0x054 = 0xF0 ∧
  (∀ a, (a < 0x050 ∨ 0x0A0 ≤ a) → State.reset.byteAt a = 0)

/-- TimerTick decrements each timer that is positive, leaves one at 0, and changes nothing else; it is accepted while the
core runs and while it waits for a key (R195; that it is accepted during the wait is R196, the spec's decision D6, log 7). -/
def Obligations.TimerTickDecrementsBothTimers : Prop :=
  ∀ (s : State) (es : List Event), s.halt = none → s.env.script = .timerTick :: es →
    ∃ t, step s = .next t ∧ t.dt.toNat = s.dt.toNat - 1 ∧ t.st.toNat = s.st.toNat - 1 ∧
      t.env = { s.env with script := es } ∧ (∀ x, t.reg x = s.reg x) ∧ t.i = s.i ∧ t.pc = s.pc ∧ t.sp = s.sp ∧
      t.stk = s.stk ∧ t.fb = s.fb ∧ (∀ a, t.byteAt a = s.byteAt a) ∧ t.wait = s.wait ∧ t.halt = none

/-- A Step in the wait state fetches nothing: a sampled key goes into the waiting register and ends the wait, no key
changes nothing (R163; the wait state is the spec's decision D5, log 7). -/
def Obligations.WaitStepSamplesKeypadOnce : Prop :=
  ∀ (s : State) (x : Nibble) (k : BitVec 16) (r : Byte) (es : List Event),
    s.halt = none → s.wait = .waitKey x → s.env.script = .step k r :: es →
    (∀ key, chooseKey k = some key → ∃ t, step s = .next t ∧ t.wait = .run ∧ (t.reg x).toNat = key.toNat ∧
      Keeps [x] [.wait] { s with env := { s.env with script := es, keysHeld := k, rnd := r } } t) ∧
    (chooseKey k = none → step s = .next { s with env := { s.env with script := es, keysHeld := k, rnd := r } })

/-- Where no script settles the next event, one step is exactly a schedule of R205's events: the free number of TimerTicks,
then one Step with the free inputs (R197; the model's choice, logs 1 and 14). -/
def Obligations.UnscriptedStepIsTicksThenStep : Prop :=
  ∀ s : State, s.env.script = [] →
    step s = applyEvents
      (List.replicate (Config.freeTicks s.env.drawn) .timerTick ++
        [.step (Config.freeKeys s.env.drawn) (Config.freeRnd s.env.drawn)])
      { s with env := { s.env with drawn := s.env.drawn + 1 } }

/-! ### Control flow -/

/-- `JP nnn`: the word 1nnn; PC becomes nnn, whatever nnn is, and nothing else changes (R102). -/
def Obligations.JpSetsPcToNnn : Prop :=
  ∀ (nnn : Addr) (s : State), decodeWord (formA 0x1 nnn) = .ok (.jpNnn nnn) ∧
    ∃ t, exec (.jpNnn nnn) s = .next t ∧ t.pc = nnn ∧ Keeps [] [.pc] s t

/-- `JP V0, nnn`: PC becomes nnn plus V0, modulo 4096, whatever the nibbles of nnn (R108; the reduction is the spec's
decision D2, log 5). -/
def Obligations.JpV0AddsOffsetModulo4096 : Prop :=
  ∀ (nnn : Addr) (s : State), ∃ t, exec (.jpV0Nnn nnn) s = .next t ∧
    t.pc.toNat = (nnn.toNat + (s.reg 0).toNat) % 4096 ∧ Keeps [] [.pc] s t

/-- `CALL nnn` below depth 16: the advanced PC is pushed and PC becomes nnn (R30, R103). -/
def Obligations.CallPushesPcAndJumps : Prop :=
  ∀ (nnn : Addr) (s : State) (h : s.sp.val < 16), ∃ t, exec (.callNnn nnn) s = .next t ∧
    t.pc = nnn ∧ t.sp.val = s.sp.val + 1 ∧ t.stk[s.sp.val] = s.pc ∧
    (∀ k : Fin 16, k.val ≠ s.sp.val → t.stk[k] = s.stk[k]) ∧ Keeps [] [.pc, .stack] s t

/-- `RET` above depth 0: PC becomes the top of the stack, which stays in its slot (R28, R31, R101). -/
def Obligations.RetPopsIntoPc : Prop :=
  ∀ (s : State) (h : 0 < s.sp.val), ∃ t, exec .ret s = .next t ∧
    t.pc = s.stk[s.sp.val - 1]'(by have := s.sp.isLt; omega) ∧ t.sp.val = s.sp.val - 1 ∧ t.stk = s.stk ∧
    Keeps [] [.pc, .stack] s t

/-- `CALL` at depth 16 and `RET` at depth 0 halt with StackOverflow and StackUnderflow, recording the fetch address (PC is
already 2 past it) and the word (R30, R31, R182, R183; the record is the spec's decision D8, log 9). -/
def Obligations.StackFaultsLatchHalt : Prop :=
  ∀ s : State,
    (∀ nnn, s.sp.val = 16 → ∃ t, exec (.callNnn nnn) s = .next t ∧
      t.halt = some ⟨.stackOverflow, s.pc - 2, some (formA 0x2 nnn)⟩) ∧
    (s.sp.val = 0 → ∃ t, exec .ret s = .next t ∧ t.halt = some ⟨.stackUnderflow, s.pc - 2, some 0x00EE⟩)

/-- A subroutine that leaves the stack as it found it returns behind its CALL: from any state with the caller's stack and
running core, RET sets PC to the address CALL pushed (R101, R103). -/
def Obligations.RetAfterCallReturnsBehindIt : Prop :=
  ∀ (nnn : Addr) (s t u : State), s.sp.val < 16 → exec (.callNnn nnn) s = .next t → u.sp = t.sp → u.stk = t.stk →
    ∃ w, exec .ret u = .next w ∧ w.pc = s.pc ∧ w.sp = s.sp ∧ Keeps [] [.pc, .stack] u w

/-- The four comparing skips: PC moves 2 further exactly when the comparison holds (R100, R104 to R107; the wrap of PC is
the spec's decision D2, log 5). -/
def Obligations.ComparingSkipsMovePc : Prop :=
  ∀ (s : State) (x y : Nibble) (kk : Byte),
    (∃ t, exec (.seVxKk x kk) s = .next t ∧ t.pc = (if s.reg x = kk then s.pc + 2 else s.pc) ∧ Keeps [] [.pc] s t) ∧
    (∃ t, exec (.sneVxKk x kk) s = .next t ∧ t.pc = (if s.reg x ≠ kk then s.pc + 2 else s.pc) ∧ Keeps [] [.pc] s t) ∧
    (∃ t, exec (.seVxVy x y) s = .next t ∧ t.pc = (if s.reg x = s.reg y then s.pc + 2 else s.pc) ∧ Keeps [] [.pc] s t) ∧
    (∃ t, exec (.sneVxVy x y) s = .next t ∧ t.pc = (if s.reg x ≠ s.reg y then s.pc + 2 else s.pc) ∧ Keeps [] [.pc] s t)

/-- The two keypad skips: SKP skips exactly when a key is sampled and is the whole byte Vx, SKNP exactly when SKP would
not (R160, R161, R200; one sample a Step is the spec's decision D13, log 1, the wrap of PC its decision D2, log 5). -/
def Obligations.KeypadSkipsMovePc : Prop :=
  ∀ (s : State) (x : Nibble),
    (∃ t, exec (.skpVx x) s = .next t ∧ Keeps [] [.pc] s t ∧
      ((∃ k, chooseKey s.env.keysHeld = some k ∧ k.toNat = (s.reg x).toNat) → t.pc = s.pc + 2) ∧
      ((¬ ∃ k, chooseKey s.env.keysHeld = some k ∧ k.toNat = (s.reg x).toNat) → t.pc = s.pc)) ∧
    (∃ t, exec (.sknpVx x) s = .next t ∧ Keeps [] [.pc] s t ∧
      ((∃ k, chooseKey s.env.keysHeld = some k ∧ k.toNat = (s.reg x).toNat) → t.pc = s.pc) ∧
      ((¬ ∃ k, chooseKey s.env.keysHeld = some k ∧ k.toNat = (s.reg x).toNat) → t.pc = s.pc + 2))

/-! ### Loads, arithmetic, logic, shifts, random -/

/-- `LD Vx, kk`, `ADD Vx, kk` and `LD Vx, Vy`, with their words: the result goes into Vx, the sum modulo 256, and nothing
else changes: no flag is written (R121, R122, R123). -/
def Obligations.ImmediateAndCopyResults : Prop :=
  ∀ (s : State) (x y : Nibble) (kk : Byte),
    (decodeWord (formRK 0x6 x kk) = .ok (.ldVxKk x kk) ∧
      ∃ t, exec (.ldVxKk x kk) s = .next t ∧ t.reg x = kk ∧ Keeps [x] [] s t) ∧
    (decodeWord (formRK 0x7 x kk) = .ok (.addVxKk x kk) ∧
      ∃ t, exec (.addVxKk x kk) s = .next t ∧ (t.reg x).toNat = ((s.reg x).toNat + kk.toNat) % 256 ∧ Keeps [x] [] s t) ∧
    (decodeWord (formRRN 0x8 x y 0x0) = .ok (.ldVxVy x y) ∧
      ∃ t, exec (.ldVxVy x y) s = .next t ∧ t.reg x = s.reg y ∧ Keeps [x] [] s t)

/-- `OR`, `AND` and `XOR`, with their words: bit by bit into Vx, and nothing else changes: VF is written only as the plain
destination (R124, R125, R126). -/
def Obligations.LogicResultsLeaveVfAlone : Prop :=
  ∀ (s : State) (x y : Nibble),
    (decodeWord (formRRN 0x8 x y 0x1) = .ok (.orVxVy x y) ∧
      ∃ t, exec (.orVxVy x y) s = .next t ∧ Keeps [x] [] s t ∧
        ∀ b, b < 8 → (t.reg x).getLsbD b = ((s.reg x).getLsbD b || (s.reg y).getLsbD b)) ∧
    (decodeWord (formRRN 0x8 x y 0x2) = .ok (.andVxVy x y) ∧
      ∃ t, exec (.andVxVy x y) s = .next t ∧ Keeps [x] [] s t ∧
        ∀ b, b < 8 → (t.reg x).getLsbD b = ((s.reg x).getLsbD b && (s.reg y).getLsbD b)) ∧
    (decodeWord (formRRN 0x8 x y 0x3) = .ok (.xorVxVy x y) ∧
      ∃ t, exec (.xorVxVy x y) s = .next t ∧ Keeps [x] [] s t ∧
        ∀ b, b < 8 → (t.reg x).getLsbD b = ((s.reg x).getLsbD b ^^ (s.reg y).getLsbD b))

/-- `ADD Vx, Vy`, with its word: the sum modulo 256 goes into Vx, then the carry into VF, which keeps the carry when x is F
(R127). -/
def Obligations.AddWritesSumThenCarry : Prop :=
  ∀ (s : State) (x y : Nibble), decodeWord (formRRN 0x8 x y 0x4) = .ok (.addVxVy x y) ∧
    ∃ t, exec (.addVxVy x y) s = .next t ∧
      (x ≠ vf → (t.reg x).toNat = ((s.reg x).toNat + (s.reg y).toNat) % 256) ∧
      t.reg vf = (if 255 < (s.reg x).toNat + (s.reg y).toNat then 1 else 0) ∧ Keeps [x, vf] [] s t

/-- `SUB` and `SUBN`, with their words: the difference modulo 256 goes into Vx, then no-borrow into VF, 1 on equality
(R128, R130). -/
def Obligations.SubtractionsWriteNoBorrow : Prop :=
  ∀ (s : State) (x y : Nibble),
    (decodeWord (formRRN 0x8 x y 0x5) = .ok (.subVxVy x y) ∧
      ∃ t, exec (.subVxVy x y) s = .next t ∧
        (x ≠ vf → (t.reg x).toNat = ((s.reg x).toNat + 256 - (s.reg y).toNat) % 256) ∧
        t.reg vf = (if (s.reg y).toNat ≤ (s.reg x).toNat then 1 else 0) ∧ Keeps [x, vf] [] s t) ∧
    (decodeWord (formRRN 0x8 x y 0x7) = .ok (.subnVxVy x y) ∧
      ∃ t, exec (.subnVxVy x y) s = .next t ∧
        (x ≠ vf → (t.reg x).toNat = ((s.reg y).toNat + 256 - (s.reg x).toNat) % 256) ∧
        t.reg vf = (if (s.reg x).toNat ≤ (s.reg y).toNat then 1 else 0) ∧ Keeps [x, vf] [] s t)

/-- `SHR` and `SHL`, with their words, for every value of the ignored field y: Vx shifted by one bit, then the bit shifted
out into VF (R129, R131). -/
def Obligations.ShiftsUseOnlyVx : Prop :=
  ∀ (s : State) (x y : Nibble),
    (decodeWord (formRRN 0x8 x y 0x6) = .ok (.shrVx x y) ∧
      ∃ t, exec (.shrVx x y) s = .next t ∧ (x ≠ vf → (t.reg x).toNat = (s.reg x).toNat / 2) ∧
        (t.reg vf).toNat = (s.reg x).toNat % 2 ∧ Keeps [x, vf] [] s t) ∧
    (decodeWord (formRRN 0x8 x y 0xE) = .ok (.shlVx x y) ∧
      ∃ t, exec (.shlVx x y) s = .next t ∧ (x ≠ vf → (t.reg x).toNat = (s.reg x).toNat * 2 % 256) ∧
        (t.reg vf).toNat = (s.reg x).toNat / 128 ∧ Keeps [x, vf] [] s t)

/-- `RND Vx, kk`: the Step's random byte, masked; so a mask bit of 0 gives 0 (R132, R202; the free input is the spec's
decision D12, log 1). -/
def Obligations.RndMasksRandomByte : Prop :=
  ∀ (s : State) (x : Nibble) (kk : Byte), ∃ t, exec (.rndVxKk x kk) s = .next t ∧ Keeps [x] [] s t ∧
    ∀ b, b < 8 → (t.reg x).getLsbD b = (s.env.rnd.getLsbD b && kk.getLsbD b)

/-! ### Address register and memory -/

/-- `LD I, nnn`, `ADD I, Vx` and `LD F, Vx`, with their words: zero-extension, the sum modulo 65536 with no flag, and the
glyph address of Vx's low digit; nothing else changes (R140, R141, R142). -/
def Obligations.AddressRegisterWriters : Prop :=
  ∀ (s : State) (nnn : Addr) (x : Nibble),
    (decodeWord (formA 0xA nnn) = .ok (.ldINnn nnn) ∧
      ∃ t, exec (.ldINnn nnn) s = .next t ∧ t.i.toNat = nnn.toNat ∧ Keeps [] [.i] s t) ∧
    (decodeWord (formRK 0xF x 0x1E) = .ok (.addIVx x) ∧
      ∃ t, exec (.addIVx x) s = .next t ∧ t.i.toNat = (s.i.toNat + (s.reg x).toNat) % 65536 ∧ Keeps [] [.i] s t) ∧
    (decodeWord (formRK 0xF x 0x29) = .ok (.ldFVx x) ∧
      ∃ t, exec (.ldFVx x) s = .next t ∧ t.i.toNat = 0x050 + (s.reg x).toNat % 16 * 5 ∧ Keeps [] [.i] s t)

/-- `LD B, Vx` with I ≤ 4093: the three decimal digits of Vx at I, I + 1 and I + 2, hundreds first; every other byte and
everything else is unchanged (R143; that stores below 0x200 and into the font succeed is the spec's decision D16, log 10). -/
def Obligations.BcdStoresThreeDigits : Prop :=
  ∀ (s : State) (x : Nibble), s.i.toNat ≤ 4093 → ∃ t, exec (.ldBVx x) s = .next t ∧
    (t.byteAt (s.ea 0)).toNat = (s.reg x).toNat / 100 ∧ (t.byteAt (s.ea 1)).toNat = (s.reg x).toNat / 10 % 10 ∧
    (t.byteAt (s.ea 2)).toNat = (s.reg x).toNat % 10 ∧
    (∀ a, a < s.ea 0 ∨ s.ea 3 ≤ a → t.byteAt a = s.byteAt a) ∧ Keeps [] [.mem] s t

/-- `LD [I], Vx` with I + x ≤ 4095: V0 to Vx stored from I on, V0 lowest; every other byte and everything else, I
included, is unchanged (R144; that stores below 0x200 and into the font succeed is the spec's decision D16, log 10). -/
def Obligations.StoreBlockStoresV0ToVx : Prop :=
  ∀ (s : State) (x : Nibble), s.i.toNat + x.toNat ≤ 4095 → ∃ t, exec (.ldMemIVx x) s = .next t ∧
    (∀ r : Nibble, r.toNat ≤ x.toNat → t.byteAt (s.ea r.toNat) = s.reg r) ∧
    (∀ a, a < s.ea 0 ∨ s.ea (x.toNat + 1) ≤ a → t.byteAt a = s.byteAt a) ∧ Keeps [] [.mem] s t

/-- `LD Vx, [I]` with I + x ≤ 4095: V0 to Vx loaded from I on; the registers above Vx, I and everything else are unchanged
(R145). -/
def Obligations.LoadBlockLoadsV0ToVx : Prop :=
  ∀ (s : State) (x : Nibble), s.i.toNat + x.toNat ≤ 4095 → ∃ t, exec (.ldVxMemI x) s = .next t ∧
    (∀ r : Nibble, r.toNat ≤ x.toNat → t.reg r = s.byteAt (s.ea r.toNat)) ∧
    (∀ r : Nibble, x.toNat < r.toNat → t.reg r = s.reg r) ∧
    Keeps ((List.range 16).map (BitVec.ofNat 4)) [] s t

/-- The four transfers that leave [0, 4095] halt, loads and DRW with ReadBounds, stores with WriteBounds, recording the
fetch address and the word; DRW of no rows never does (R61, R182, R183; the record is the spec's decision D8, log 9). -/
def Obligations.TransfersOutOfBoundsLatchHalt : Prop :=
  ∀ (s : State) (x y n : Nibble),
    (4093 < s.i.toNat → ∃ t, exec (.ldBVx x) s = .next t ∧
      t.halt = some ⟨.writeBounds, s.pc - 2, some (formRK 0xF x 0x33)⟩) ∧
    (4095 < s.i.toNat + x.toNat → ∃ t, exec (.ldMemIVx x) s = .next t ∧
      t.halt = some ⟨.writeBounds, s.pc - 2, some (formRK 0xF x 0x55)⟩) ∧
    (4095 < s.i.toNat + x.toNat → ∃ t, exec (.ldVxMemI x) s = .next t ∧
      t.halt = some ⟨.readBounds, s.pc - 2, some (formRK 0xF x 0x65)⟩) ∧
    (¬ InBounds s n.toNat → ∃ t, exec (.drwVxVyN x y n) s = .next t ∧
      t.halt = some ⟨.readBounds, s.pc - 2, some (formRRN 0xD x y n)⟩)

/-- "Fx55 then Fx65 with unchanged I restores V0..Vx": from any state with the stored memory and the same I, whatever its
registers, the load gives back V0 to Vx (the law quoted in R144; below 0x200 by the spec's decision D16, log 10). -/
def Obligations.StoreThenLoadRestoresRegisters : Prop :=
  ∀ (s t u : State) (x : Nibble), s.i.toNat + x.toNat ≤ 4095 → exec (.ldMemIVx x) s = .next t →
    u.i = t.i → (∀ a, u.byteAt a = t.byteAt a) →
    ∃ w, exec (.ldVxMemI x) u = .next w ∧ ∀ r : Nibble, r.toNat ≤ x.toNat → w.reg r = s.reg r

/-- "Fx33 followed by Fx65 with the same I reconstructs" the number: with at least V0 to V2 loaded, V0 * 100 + V1 * 10 + V2
is the old Vx (the law quoted in R143; below 0x200 by the spec's decision D16, log 10). -/
def Obligations.BcdThenLoadReconstructsNumber : Prop :=
  ∀ (s t u : State) (x z : Nibble), s.i.toNat ≤ 4093 → exec (.ldBVx x) s = .next t →
    u.i = t.i → (∀ a, u.byteAt a = t.byteAt a) → 2 ≤ z.toNat → s.i.toNat + z.toNat ≤ 4095 →
    ∃ w, exec (.ldVxMemI z) u = .next w ∧
      (w.reg 0).toNat * 100 + (w.reg 1).toNat * 10 + (w.reg 2).toNat = (s.reg x).toNat

/-- A stored instruction is what the very next Step executes: if `LD [I], Vx` with x ≥ 1 stores at the next PC and V0, V1
are the bytes of an instruction, the step after it runs that instruction (R65; coherence, an odd PC and stores below 0x200
are the spec's decisions D15, D14 and D16, log 10, the wrap of PC its decision D2, log 5). -/
def Obligations.StoredWordIsFetchedNext : Prop :=
  ∀ (s t : State) (x : Nibble) (i : Instr) (k : BitVec 16) (r : Byte) (es : List Event),
    1 ≤ x.toNat → s.i.toNat = s.pc.toNat → s.i.toNat + x.toNat ≤ 4095 → s.halt = none → s.wait = .run →
    s.env.script = .step k r :: es → decodeWord (wordOfBytes (s.reg 0) (s.reg 1)) = .ok i →
    exec (.ldMemIVx x) s = .next t →
    step t = exec i { t with pc := s.pc + 2, env := { s.env with script := es, keysHeld := k, rnd := r } }

/-! ### Display -/

/-- `CLS`, the word 00E0: every pixel off, nothing else changes (R150, R152). -/
def Obligations.ClsClearsScreen : Prop :=
  decodeWord 0x00E0 = .ok .cls ∧
  ∀ s : State, ∃ t, exec .cls s = .next t ∧ (∀ x y, pixel t.fb x y = false) ∧ Keeps [] [.fb] s t

/-- `DRW Vx, Vy, n` with its bytes inside M: every pixel of the screen is exclusive-ored with the clipped sprite at
(Vx mod 64, Vy mod 32), VF says whether an on pixel was turned off, and nothing else changes (R151, R153; that the
coordinates are read before VF is cleared is the spec's decision D7, log 8). -/
def Obligations.DrawXorsClippedSprite : Prop :=
  ∀ (s : State) (x y n : Nibble), InBounds s n.toNat → ∃ t, exec (.drwVxVyN x y n) s = .next t ∧
    (∀ px py, px < 64 → py < 32 → pixel t.fb px py =
      (pixel s.fb px py ^^ spriteBitAt s ((s.reg x).toNat % 64) ((s.reg y).toNat % 32) n.toNat px py)) ∧
    ((∃ px py, px < 64 ∧ py < 32 ∧ pixel s.fb px py = true ∧
      spriteBitAt s ((s.reg x).toNat % 64) ((s.reg y).toNat % 32) n.toNat px py = true) → t.reg vf = 1) ∧
    ((¬ ∃ px py, px < 64 ∧ py < 32 ∧ pixel s.fb px py = true ∧
      spriteBitAt s ((s.reg x).toNat % 64) ((s.reg y).toNat % 32) n.toNat px py = true) → t.reg vf = 0) ∧
    Keeps [vf] [.fb] s t

/-- The same DRW twice restores the screen, and the second sets VF exactly when an on-screen 1 bit of the sprite lay over
a pixel that was off before the first; the coordinate registers are not VF, so that they are the same (R154, the spec's
own derivation). -/
def Obligations.DrawTwiceRestoresScreen : Prop :=
  ∀ (s t : State) (x y n : Nibble), InBounds s n.toNat → x ≠ vf → y ≠ vf → exec (.drwVxVyN x y n) s = .next t →
    ∃ u, exec (.drwVxVyN x y n) t = .next u ∧ u.fb = s.fb ∧
      (u.reg vf = 1 ↔ ∃ px py, px < 64 ∧ py < 32 ∧ pixel s.fb px py = false ∧
        spriteBitAt s ((s.reg x).toNat % 64) ((s.reg y).toNat % 32) n.toNat px py = true) ∧
      Keeps [vf] [] s u

/-! ### Keypad and timers -/

/-- `LD Vx, K`: a sampled key goes into Vx at once; with none the core waits, and PC, the registers and all else stay (R162;
the wait state is the spec's decision D5, log 7). -/
def Obligations.KeyLoadCompletesOrWaits : Prop :=
  ∀ (s : State) (x : Nibble),
    (∀ k, chooseKey s.env.keysHeld = some k →
      ∃ t, exec (.ldVxK x) s = .next t ∧ (t.reg x).toNat = k.toNat ∧ Keeps [x] [] s t) ∧
    (chooseKey s.env.keysHeld = none →
      ∃ t, exec (.ldVxK x) s = .next t ∧ t.wait = .waitKey x ∧ Keeps [] [.wait] s t)

/-- `LD Vx, DT`, `LD DT, Vx` and `LD ST, Vx`, with their words (R164, R165, R166): the byte is moved as it is and nothing else
changes; the sound output is on exactly while ST is positive (R204, the spec's decision D21, log 17). -/
def Obligations.TimerMovesCopyBytes : Prop :=
  ∀ (s : State) (x : Nibble),
    (decodeWord (formRK 0xF x 0x07) = .ok (.ldVxDt x) ∧
      ∃ t, exec (.ldVxDt x) s = .next t ∧ t.reg x = s.dt ∧ Keeps [x] [] s t) ∧
    (decodeWord (formRK 0xF x 0x15) = .ok (.ldDtVx x) ∧
      ∃ t, exec (.ldDtVx x) s = .next t ∧ t.dt = s.reg x ∧ Keeps [] [.dt] s t) ∧
    (decodeWord (formRK 0xF x 0x18) = .ok (.ldStVx x) ∧
      ∃ t, exec (.ldStVx x) s = .next t ∧ t.st = s.reg x ∧ (t.sound = true ↔ 0 < (s.reg x).toNat) ∧ Keeps [] [.st] s t)

/-- The key the core samples is the first held key in the order 1 2 3 C 4 5 6 D 7 8 9 E A 0 B F, and NONE exactly when no
key is held (R201). -/
def Obligations.KeySampleFollowsPriority : Prop :=
  ∀ held : BitVec 16,
    (chooseKey held = none ↔ held = 0) ∧
    ∀ k : Nibble, chooseKey held = some k ↔
      ∃ before after, ([0x1, 0x2, 0x3, 0xC, 0x4, 0x5, 0x6, 0xD, 0x7, 0x8, 0x9, 0xE, 0xA, 0x0, 0xB, 0xF] : List Nibble) =
        before ++ k :: after ∧ held.getLsbD k.toNat = true ∧ ∀ j ∈ before, held.getLsbD j.toNat = false

/-! ### The whole machine -/

/-- Every instruction ends in a next state from every state: none faults the machine, none is refused (R181, R182: a fatal
fault is itself a next state, the latched one). The kinds and what the record holds are the spec's decision D8; that the
recorded address is PC - 2 and the recorded word the instruction's own is deduced (R183, log 9). -/
def Obligations.EveryInstructionEndsInNextState : Prop :=
  ∀ (i : Instr) (s : State), ∃ t, exec i s = .next t ∧ (t.halt = s.halt ∨ ∃ kind, faultOf i = some kind ∧
    t.halt = some ⟨kind, s.pc - 2, some (encode i)⟩)

/-- Only the six instructions of R182's table can halt a running core, each with its own kind (R182, R187). -/
def Obligations.OnlySixInstructionsCanHalt : Prop :=
  ∀ (i : Instr) (s t : State), s.halt = none → exec i s = .next t → t.halt ≠ none →
    ((∃ nnn, i = .callNnn nnn) ∧ s.sp.val = 16) ∨ (i = .ret ∧ s.sp.val = 0) ∨
    ((∃ x, i = .ldBVx x) ∧ 4095 < s.i.toNat + 2) ∨ (∃ x, i = .ldMemIVx x ∧ 4095 < s.i.toNat + x.toNat) ∨
    (∃ x, i = .ldVxMemI x ∧ 4095 < s.i.toNat + x.toNat) ∨
    (∃ x y n, i = .drwVxVyN x y n ∧ n ≠ 0 ∧ 4095 < s.i.toNat + n.toNat - 1)

/-- The flag-writing instructions leave VF 0 or 1, in whatever register and state (R22). -/
def Obligations.FlagWritersLeaveVfZeroOrOne : Prop :=
  ∀ (i : Instr) (s t : State), writesFlag i = true → s.halt = none → exec i s = .next t → t.halt = none →
    t.reg vf = 0 ∨ t.reg vf = 1

/-- Each part of the state has only its own writers: I (R24), the stack (R27), the timers (R32), the framebuffer (R34), the
memory (R51), WAIT (R37; the wait state is the spec's decision D5, log 7); and a store or a draw moves PC no more than any
sequential instruction (R109; a skip's 2 wrap by the spec's decision D2, log 5). -/
def Obligations.EachPartHasItsOwnWriters : Prop :=
  ∀ (i : Instr) (s t : State), s.halt = none → exec i s = .next t → t.halt = none →
    (t.i = s.i ∨ (∃ nnn, i = .ldINnn nnn) ∨ (∃ x, i = .addIVx x) ∨ ∃ x, i = .ldFVx x) ∧
    ((t.sp = s.sp ∧ t.stk = s.stk) ∨ (∃ nnn, i = .callNnn nnn) ∨ i = .ret) ∧
    (t.dt = s.dt ∨ ∃ x, i = .ldDtVx x) ∧ (t.st = s.st ∨ ∃ x, i = .ldStVx x) ∧
    (t.fb = s.fb ∨ i = .cls ∨ ∃ x y n, i = .drwVxVyN x y n) ∧
    ((∀ a, t.byteAt a = s.byteAt a) ∨ (∃ x, i = .ldBVx x) ∨ ∃ x, i = .ldMemIVx x) ∧
    (t.wait = s.wait ∨ ∃ x, i = .ldVxK x) ∧
    (t.pc = s.pc ∨ (∃ nnn, i = .jpNnn nnn) ∨ (∃ nnn, i = .callNnn nnn) ∨ i = .ret ∨ (∃ nnn, i = .jpV0Nnn nnn) ∨
      (t.pc = s.pc + 2 ∧ ((∃ x kk, i = .seVxKk x kk) ∨ (∃ x kk, i = .sneVxKk x kk) ∨ (∃ x y, i = .seVxVy x y) ∨
        (∃ x y, i = .sneVxVy x y) ∨ (∃ x, i = .skpVx x) ∨ ∃ x, i = .sknpVx x)))

/-- The keys held reach no instruction but SKP, SKNP and LD Vx, K, and the random byte none but RND: on a running core any
other instruction ends with other inputs in a state with the same HALT, and, where that is NONE, in the same state but for
the inputs themselves (R200, R202; the inputs of a Step are the spec's decisions D12 and D13, log 1). Of a halted state only
the HALT record is claimed (R184, log 2). -/
def Obligations.InputsReachOnlyTheirReaders : Prop :=
  ∀ (i : Instr) (s t : State), s.halt = none → exec i s = .next t →
    (readsKey i = false → ∀ k, ∃ u, exec i { s with env := { s.env with keysHeld := k } } = .next u ∧ u.halt = t.halt ∧
      (t.halt = none → u = { t with env := { t.env with keysHeld := k } })) ∧
    ((∀ x kk, i ≠ .rndVxKk x kk) → ∀ r, ∃ u, exec i { s with env := { s.env with rnd := r } } = .next u ∧ u.halt = t.halt ∧
      (t.halt = none → u = { t with env := { t.env with rnd := r } }))

/-- The state after reset meets the invariant: its memory has the canonical form, which is the model's own (log 11), and it
has no HALT record, so that none is illegal (R38, R41; HALT = NONE is the spec's decision D19, log 18). -/
def Obligations.ResetMeetsInvariant : Prop := State.reset.halt = none ∧ CanonicalAndLegal State.reset

/-- Every step keeps the invariant, from every state that meets it and under every event: memory stays in its canonical
form, which is the model's own representation of M (R50, log 11), and HALT, once latched, holds a legal record (R38, R182,
R183; the kinds and contents of a record are the spec's decision D8, log 9). -/
def Obligations.StepKeepsInvariant : Prop :=
  ∀ s t : State, CanonicalAndLegal s → step s = .next t → CanonicalAndLegal t
end

