-- ==== Sys2Proof/Laws/Encoding.lean ====
section
/-! SUPPORT. The fields of the three word forms, a word from its fields, and the bytes of a word. -/

namespace Sys2Proof

/-! ### The fields of a form -/

@[simp] theorem fieldI_formA (i : Nibble) (nnn : Addr) : fieldI (formA i nnn) = i :=
  BitVec.extractLsb'_append_eq_left

@[simp] theorem fieldNnn_formA (i : Nibble) (nnn : Addr) : fieldNnn (formA i nnn) = nnn :=
  BitVec.extractLsb'_append_eq_right

@[simp] theorem fieldI_formRK (i x : Nibble) (kk : Byte) : fieldI (formRK i x kk) = i := by
  ext j hj
  simp only [fieldI, formRK, BitVec.getElem_extractLsb', BitVec.getLsbD_append]
  grind

@[simp] theorem fieldX_formRK (i x : Nibble) (kk : Byte) : fieldX (formRK i x kk) = x := by
  ext j hj
  simp only [fieldX, formRK, BitVec.getElem_extractLsb', BitVec.getLsbD_append]
  grind

@[simp] theorem fieldKk_formRK (i x : Nibble) (kk : Byte) : fieldKk (formRK i x kk) = kk := by
  ext j hj
  simp only [fieldKk, formRK, BitVec.getElem_extractLsb', BitVec.getLsbD_append]
  grind

@[simp] theorem fieldI_formRRN (i x y n : Nibble) : fieldI (formRRN i x y n) = i := by
  ext j hj
  simp only [fieldI, formRRN, BitVec.getElem_extractLsb', BitVec.getLsbD_append]
  grind

@[simp] theorem fieldX_formRRN (i x y n : Nibble) : fieldX (formRRN i x y n) = x := by
  ext j hj
  simp only [fieldX, formRRN, BitVec.getElem_extractLsb', BitVec.getLsbD_append]
  grind

@[simp] theorem fieldY_formRRN (i x y n : Nibble) : fieldY (formRRN i x y n) = y := by
  ext j hj
  simp only [fieldY, formRRN, BitVec.getElem_extractLsb', BitVec.getLsbD_append]
  grind

@[simp] theorem fieldN_formRRN (i x y n : Nibble) : fieldN (formRRN i x y n) = n := by
  ext j hj
  simp only [fieldN, formRRN, BitVec.getElem_extractLsb', BitVec.getLsbD_append]
  grind

/-! ### A word from its fields (R71: `nnn` is `x : y : n`, `kk` is `y : n`) -/

theorem formA_fields (w : Word) : formA (fieldI w) (fieldNnn w) = w := by
  ext j hj
  unfold fieldI fieldNnn formA
  grind

theorem formRK_fields (w : Word) : formRK (fieldI w) (fieldX w) (fieldKk w) = w := by
  ext j hj
  unfold fieldI fieldX fieldKk formRK
  grind

theorem formRRN_fields (w : Word) : formRRN (fieldI w) (fieldX w) (fieldY w) (fieldN w) = w := by
  ext j hj
  unfold fieldI fieldX fieldY fieldN formRRN
  grind

/-! ### Bytes -/

@[simp] theorem wordOfBytes_bytes (w : Word) : wordOfBytes (highByte w) (lowByte w) = w := by
  ext j hj
  unfold wordOfBytes highByte lowByte
  grind

@[simp] theorem highByte_wordOfBytes (hi lo : Byte) : highByte (wordOfBytes hi lo) = hi :=
  BitVec.extractLsb'_append_eq_left

@[simp] theorem lowByte_wordOfBytes (hi lo : Byte) : lowByte (wordOfBytes hi lo) = lo :=
  BitVec.extractLsb'_append_eq_right

/-- A word that decodes is decoded by its own group, and one that does not is rejected under its own name (R80). -/
theorem decodeWord_cases (w : Word) :
    (∃ i, decodeOp w = some i ∧ decodeWord w = .ok i) ∨
    (decodeOp w = none ∧ decodeWord w = .error (.unknownEncoding w)) := by
  unfold decodeWord
  cases h : decodeOp w with
  | none => exact .inr ⟨rfl, rfl⟩
  | some i => exact .inl ⟨i, rfl, rfl⟩

end Sys2Proof
end

