-- ==== Sys2Proof/Laws/Framebuffer.lean ====
section
/-! SUPPORT. What plotting does to the framebuffer, pixel by pixel. -/

namespace Sys2Proof.Machine

/-- Two framebuffers that show the same pixels are the same (R34). -/
theorem framebuffer_ext {f g : Framebuffer} (h : ∀ x y, x < 64 → y < 32 → pixel f x y = pixel g x y) : f = g := by
  refine Vector.ext fun y hy => Vector.ext fun x hx => ?_
  have := h x y hx hy
  simpa only [pixel, hx, hy, and_self, dif_pos] using this

theorem pixel_outside {f : Framebuffer} {x y : Nat} (h : ¬ (x < 64 ∧ y < 32)) : pixel f x y = false := by
  simp only [pixel, h, dif_neg, not_false_iff]

/-- A cleared framebuffer shows nothing (R150). -/
@[simp] theorem pixel_fbClear (x y : Nat) : pixel fbClear x y = false := by
  unfold pixel fbClear
  split
  · simp
  · rfl

/-- XorPlot toggles its own pixel when the bit is 1 and the pixel is on the screen, and no other (R151). -/
theorem pixel_xorPlot (f : Framebuffer) (x y px py : Nat) (bit : Bool) :
    pixel (xorPlot f x y bit).1 px py =
      (pixel f px py ^^ (bit && decide (px = x ∧ py = y ∧ x < 64 ∧ y < 32))) := by
  unfold xorPlot
  by_cases h : x < 64 ∧ y < 32
  · cases bit
    · simp [h]
    · simp only [h, and_self, dif_pos, if_true, Bool.true_and]
      by_cases hp : px < 64 ∧ py < 32
      · simp only [pixel, hp, and_self, dif_pos, Vector.getElem_set]
        by_cases hy : y = py
        · subst hy
          by_cases hx : x = px
          · subst hx; simp
          · simp [hx, Ne.symm hx]
        · simp [hy, Ne.symm hy]
      · have : ¬ (px = x ∧ py = y) := by rintro ⟨rfl, rfl⟩; exact hp h
        simp only [pixel_outside hp, Bool.false_xor]
        simp only [and_true, this, decide_false]
  · have : ¬ (px = x ∧ py = y ∧ x < 64 ∧ y < 32) := by rintro ⟨_, _, h3⟩; exact h h3
    rw [dif_neg h, decide_eq_false this, Bool.and_false, Bool.xor_false]

/-- XorPlot reports a collision exactly when it turns an on pixel off (R151). -/
theorem xorPlot_collision (f : Framebuffer) (x y : Nat) (bit : Bool) : (xorPlot f x y bit).2 = (bit && pixel f x y) := by
  unfold xorPlot pixel
  split
  · cases bit <;> simp
  · simp

/-- One sprite row, pixel by pixel: the bits from column `x` on are exclusive-ored onto row `y`, clipped. -/
theorem pixel_plotBits (f : Framebuffer) (x y px py : Nat) (bits : List Bool) :
    pixel (plotBits f x y bits).1 px py =
      (pixel f px py ^^ (bits.getD (px - x) false && decide (x ≤ px ∧ px < 64 ∧ py = y ∧ y < 32))) := by
  induction bits generalizing f x with
  | nil => simp [plotBits]
  | cons b bits ih =>
    simp only [plotBits, ih, pixel_xorPlot]
    by_cases hx : px = x
    · subst hx
      have h1 : ¬ (px + 1 ≤ px ∧ px < 64 ∧ py = y ∧ y < 32) := by omega
      simp only [h1, decide_false, Bool.and_false, Bool.xor_false, Nat.sub_self, List.getD_cons_zero]
      congr 2
      simp only [decide_eq_decide, true_and, Nat.le_refl]
      omega
    · by_cases hlt : x < px
      · obtain ⟨j, hj⟩ : ∃ j, px - x = j + 1 := ⟨px - x - 1, by omega⟩
        have hj' : px - (x + 1) = j := by omega
        simp only [hj, hj', List.getD_cons_succ, hx, false_and, decide_false, Bool.and_false, Bool.xor_false]
        congr 2
        simp only [decide_eq_decide]
        omega
      · have h1 : ¬ (x + 1 ≤ px ∧ px < 64 ∧ py = y ∧ y < 32) := by omega
        have h2 : ¬ (x ≤ px ∧ px < 64 ∧ py = y ∧ y < 32) := by omega
        simp only [h1, h2, hx, false_and, decide_false, Bool.and_false, Bool.xor_false]

/-- A sprite row collides exactly when one of its on-screen 1 bits lies over an on pixel. -/
theorem plotBits_collision (f : Framebuffer) (x y : Nat) (bits : List Bool) :
    (plotBits f x y bits).2 = true ↔ ∃ px, x ≤ px ∧ bits.getD (px - x) false = true ∧ pixel f px y = true := by
  induction bits generalizing f x with
  | nil => simp [plotBits]
  | cons b bits ih =>
    simp only [plotBits, Bool.or_eq_true, ih, xorPlot_collision, Bool.and_eq_true]
    constructor
    · rintro (⟨hb, hp⟩ | ⟨px, hle, hbit, hp⟩)
      · exact ⟨x, Nat.le_refl x, by simpa using hb, hp⟩
      · refine ⟨px, by omega, ?_, ?_⟩
        · obtain ⟨j, hj⟩ : ∃ j, px - x = j + 1 := ⟨px - x - 1, by omega⟩
          have hj' : px - (x + 1) = j := by omega
          rw [hj, List.getD_cons_succ, ← hj']
          exact hbit
        · rw [pixel_xorPlot] at hp
          have : ¬ (px = x ∧ y = y ∧ x < 64 ∧ y < 32) := by omega
          rwa [decide_eq_false this, Bool.and_false, Bool.xor_false] at hp
    · rintro ⟨px, hle, hbit, hp⟩
      by_cases hx : px = x
      · subst hx
        exact .inl ⟨by simpa using hbit, hp⟩
      · refine .inr ⟨px, by omega, ?_, ?_⟩
        · obtain ⟨j, hj⟩ : ∃ j, px - x = j + 1 := ⟨px - x - 1, by omega⟩
          have hj' : px - (x + 1) = j := by omega
          rw [hj, List.getD_cons_succ] at hbit
          rw [hj']
          exact hbit
        · have : ¬ (px = x ∧ y = y ∧ x < 64 ∧ y < 32) := by omega
          rwa [pixel_xorPlot, decide_eq_false this, Bool.and_false, Bool.xor_false]

/-- Bit `c` of a sprite row from the left is bit `7 - c` of its byte (R153). -/
theorem spriteBits_getD (b : Byte) (c : Nat) : (spriteBits b).getD c false = (decide (c < 8) && b.getLsbD (7 - c)) := by
  by_cases h : c < 8
  · have : c = 0 ∨ c = 1 ∨ c = 2 ∨ c = 3 ∨ c = 4 ∨ c = 5 ∨ c = 6 ∨ c = 7 := by omega
    rcases this with rfl | rfl | rfl | rfl | rfl | rfl | rfl | rfl <;> simp [spriteBits]
  · have hl : (spriteBits b).length ≤ c := by simp only [spriteBits, List.length_cons, List.length_nil]; omega
    rw [List.getD_eq_default _ _ hl, decide_eq_false h, Bool.false_and]

/-- The bit of the sprite `bs` at a screen position. -/
def spriteOver (bs : List Byte) (x y px py : Nat) : Bool :=
  decide (x ≤ px ∧ px < x + 8 ∧ y ≤ py ∧ py < y + bs.length) && (bs.getD (py - y) 0).getLsbD (7 - (px - x))

/-- DRW's plotting, pixel by pixel: the clipped sprite is exclusive-ored onto the screen (R153, R154). -/
theorem pixel_plotRows (f : Framebuffer) (x y px py : Nat) (bs : List Byte) (hx : px < 64) (hy : py < 32) :
    pixel (plotRows f x y bs).1 px py = (pixel f px py ^^ spriteOver bs x y px py) := by
  induction bs generalizing f y with
  | nil =>
    have : ¬ (x ≤ px ∧ px < x + 8 ∧ y ≤ py ∧ py < y + 0) := by omega
    simp only [plotRows, spriteOver, List.length_nil, this, decide_false, Bool.false_and, Bool.xor_false]
  | cons b bs ih =>
    simp only [plotRows, ih, pixel_plotBits, spriteBits_getD, spriteOver, List.length_cons]
    by_cases h0 : py = y
    · subst h0
      have h1 : ¬ (x ≤ px ∧ px < x + 8 ∧ py + 1 ≤ py ∧ py < py + 1 + bs.length) := by omega
      simp only [h1, decide_false, Bool.false_and, Bool.xor_false, Nat.sub_self, List.getD_cons_zero]
      congr 1
      by_cases h2 : x ≤ px ∧ px < x + 8
      · have h3 : x ≤ px ∧ px < x + 8 ∧ py ≤ py ∧ py < py + (bs.length + 1) := by omega
        have h4 : px - x < 8 := by omega
        have h5 : x ≤ px ∧ px < 64 ∧ py = py ∧ py < 32 := by omega
        simp only [h3, h4, h5, and_self, decide_true, Bool.true_and, Bool.and_true]
      · have h3 : ¬ (x ≤ px ∧ px < x + 8 ∧ py ≤ py ∧ py < py + (bs.length + 1)) := by omega
        by_cases h4 : x ≤ px
        · have h5 : ¬ px - x < 8 := by omega
          simp only [h3, h5, decide_false, Bool.false_and]
        · have h5 : ¬ (x ≤ px ∧ px < 64 ∧ py = py ∧ py < 32) := by omega
          simp only [h4, false_and, decide_false, Bool.false_and, Bool.and_false]
    · have h1 : ¬ (x ≤ px ∧ px < 64 ∧ py = y ∧ y < 32) := by omega
      simp only [h1, decide_false, Bool.and_false, Bool.xor_false]
      congr 1
      by_cases h2 : y < py
      · obtain ⟨j, hj⟩ : ∃ j, py - y = j + 1 := ⟨py - y - 1, by omega⟩
        have hj' : py - (y + 1) = j := by omega
        simp only [hj, hj', List.getD_cons_succ]
        congr 1
        simp only [decide_eq_decide]
        omega
      · have h3 : ¬ (x ≤ px ∧ px < x + 8 ∧ y + 1 ≤ py ∧ py < y + 1 + bs.length) := by omega
        have h4 : ¬ (x ≤ px ∧ px < x + 8 ∧ y ≤ py ∧ py < y + (bs.length + 1)) := by omega
        simp only [h3, h4, decide_false, Bool.false_and]

/-- DRW's plotting collides exactly when an on-screen 1 bit of the sprite lies over an on pixel (R153, R154). -/
theorem plotRows_collision (f : Framebuffer) (x y : Nat) (bs : List Byte) :
    (plotRows f x y bs).2 = true ↔
      ∃ px py, px < 64 ∧ py < 32 ∧ spriteOver bs x y px py = true ∧ pixel f px py = true := by
  induction bs generalizing f y with
  | nil =>
    simp only [plotRows, spriteOver, List.length_nil, Nat.add_zero, Bool.false_eq_true, false_iff, not_exists, not_and,
      Bool.and_eq_true, decide_eq_true_eq]
    omega
  | cons b bs ih =>
    simp only [plotRows, Bool.or_eq_true, ih, plotBits_collision, spriteBits_getD, Bool.and_eq_true, decide_eq_true_eq]
    constructor
    · rintro (⟨px, hle, ⟨h8, hbit⟩, hp⟩ | ⟨px, py, hx, hy, hs, hp⟩)
      · by_cases hin : px < 64 ∧ y < 32
        · refine ⟨px, y, hin.1, hin.2, ?_, hp⟩
          simp only [spriteOver, Nat.sub_self, List.getD_cons_zero, List.length_cons, Bool.and_eq_true, decide_eq_true_eq]
          exact ⟨by omega, hbit⟩
        · rw [pixel_outside hin] at hp
          cases hp
      · rw [pixel_plotBits] at hp
        simp only [spriteOver, Bool.and_eq_true, decide_eq_true_eq] at hs
        have hne : ¬ (x ≤ px ∧ px < 64 ∧ py = y ∧ y < 32) := by omega
        simp only [hne, decide_false, Bool.and_false, Bool.xor_false] at hp
        refine ⟨px, py, hx, hy, ?_, hp⟩
        obtain ⟨j, hj⟩ : ∃ j, py - y = j + 1 := ⟨py - y - 1, by omega⟩
        have hj' : py - (y + 1) = j := by omega
        simp only [spriteOver, hj, List.getD_cons_succ, List.length_cons, Bool.and_eq_true, decide_eq_true_eq]
        exact ⟨by omega, hj' ▸ hs.2⟩
    · rintro ⟨px, py, hx, hy, hs, hp⟩
      simp only [spriteOver, List.length_cons, Bool.and_eq_true, decide_eq_true_eq] at hs
      by_cases h0 : py = y
      · subst h0
        refine .inl ⟨px, hs.1.1, ⟨by omega, ?_⟩, hp⟩
        simpa only [Nat.sub_self, List.getD_cons_zero] using hs.2
      · refine .inr ⟨px, py, hx, hy, ?_, ?_⟩
        · obtain ⟨j, hj⟩ : ∃ j, py - y = j + 1 := ⟨py - y - 1, by omega⟩
          have hj' : py - (y + 1) = j := by omega
          have h2 := hs.2
          rw [hj, List.getD_cons_succ] at h2
          simp only [spriteOver, hj', Bool.and_eq_true, decide_eq_true_eq]
          exact ⟨by omega, h2⟩
        · rw [pixel_plotBits]
          have hne : ¬ (x ≤ px ∧ px < 64 ∧ py = y ∧ y < 32) := by omega
          simpa only [hne, decide_false, Bool.and_false, Bool.xor_false] using hp

end Sys2Proof.Machine
end

