-- ==== Sys2Proof/Laws/Memory.lean ====
section
/-! SUPPORT. The laws of memory: read after write, the canonical form, blocks. -/

namespace Sys2Proof.Machine

/-! ### Read after write -/

theorem Memory.read_drop (m : Memory) (a b : Nat) :
    (Memory.drop a m).read b = if b = a then Config.resetByte b else m.read b := by
  induction m with
  | nil => simp [Memory.drop, Memory.read]
  | cons c m ih =>
    obtain ⟨d, v⟩ := c
    by_cases h : d = a
    · subst h
      simp only [Memory.drop, if_true, ih, Memory.read]
      by_cases h2 : b = d
      · simp [h2]
      · simp [h2, Ne.symm h2]
    · simp only [Memory.drop, h, if_false, Memory.read, ih]
      by_cases h2 : d = b
      · subst h2; simp [h]
      · simp [h2]

theorem Memory.read_put (m : Memory) (a b : Nat) (w : Byte) :
    (Memory.put a w m).read b = if b = a then w else m.read b := by
  induction m with
  | nil => simp [Memory.put, Memory.read, eq_comm]
  | cons c m ih =>
    obtain ⟨d, v⟩ := c
    simp only [Memory.put]
    split
    · simp [Memory.read, eq_comm]
    · split
      · next h =>
        subst h
        by_cases h2 : b = d
        · simp [Memory.read, h2]
        · simp [Memory.read, h2, Ne.symm h2]
      · next h =>
        simp only [Memory.read, ih]
        by_cases h2 : d = b
        · subst h2; simp [h]
        · simp [h2]

/-- A read returns what was last written to its address, and a write leaves every other address alone (R57, R63). -/
theorem Memory.read_write (m : Memory) (a b : Nat) (w : Byte) :
    (m.write a w).read b = if b = a then w else m.read b := by
  unfold Memory.write
  split
  · next h =>
    rw [Memory.read_drop]
    by_cases h2 : b = a
    · simp [h2, h]
    · simp [h2]
  · exact Memory.read_put m a b w

/-- What a block of stores leaves at an address: the stored byte inside the block, the old one outside. -/
theorem Memory.read_writeBytes (m : Memory) (dst a : Nat) (bs : List Byte) :
    (m.writeBytes dst bs).read a = if dst ≤ a ∧ a < dst + bs.length then bs.getD (a - dst) 0 else m.read a := by
  induction bs generalizing m dst with
  | nil =>
    have : ¬ (dst ≤ a ∧ a < dst) := by omega
    simp [Memory.writeBytes, this]
  | cons b bs ih =>
    simp only [Memory.writeBytes, ih, List.length_cons, Memory.read_write]
    by_cases h : a = dst
    · subst h; simp
    · by_cases h2 : dst + 1 ≤ a ∧ a < dst + 1 + bs.length
      · have h3 : dst ≤ a ∧ a < dst + (bs.length + 1) := by omega
        obtain ⟨j, hj⟩ : ∃ j, a - dst = j + 1 := ⟨a - dst - 1, by omega⟩
        have hj' : a - (dst + 1) = j := by omega
        simp [h2, h3, hj, hj']
      · have h3 : ¬ (dst ≤ a ∧ a < dst + (bs.length + 1)) := by omega
        rw [if_neg h2, if_neg h, if_neg h3]

/-! ### The canonical form -/

theorem Memory.wfFrom_mono {m : Memory} {lo lo' : Nat} (h : m.wfFrom lo = true) (hl : lo' ≤ lo) : m.wfFrom lo' = true := by
  cases m with
  | nil => rfl
  | cons c m =>
    obtain ⟨a, v⟩ := c
    simp only [Memory.wfFrom, Bool.and_eq_true, decide_eq_true_eq] at h ⊢
    exact ⟨⟨⟨by omega, h.1.1.2⟩, h.1.2⟩, h.2⟩

/-- Below the first cell every address reads as after reset. -/
theorem Memory.read_below {m : Memory} {lo a : Nat} (h : m.wfFrom lo = true) (ha : a < lo) : m.read a = Config.resetByte a := by
  induction m generalizing lo with
  | nil => rfl
  | cons c m ih =>
    obtain ⟨b, v⟩ := c
    simp only [Memory.wfFrom, Bool.and_eq_true, decide_eq_true_eq] at h
    have hb : ¬ b = a := by omega
    simp only [Memory.read, hb, if_false]
    exact ih h.2 (by omega)

theorem Memory.wfFrom_drop {m : Memory} {lo a : Nat} (h : m.wfFrom lo = true) : (Memory.drop a m).wfFrom lo = true := by
  induction m generalizing lo with
  | nil => rfl
  | cons c m ih =>
    obtain ⟨b, v⟩ := c
    simp only [Memory.wfFrom, Bool.and_eq_true, decide_eq_true_eq] at h
    simp only [Memory.drop]
    split
    · exact Memory.wfFrom_mono (ih h.2) (by omega)
    · simp only [Memory.wfFrom, Bool.and_eq_true, decide_eq_true_eq]
      exact ⟨h.1, ih h.2⟩

theorem Memory.wfFrom_put {m : Memory} {lo a : Nat} {w : Byte} (h : m.wfFrom lo = true) (hl : lo ≤ a)
    (ha : a < Config.memSize) (hw : w ≠ Config.resetByte a) : (Memory.put a w m).wfFrom lo = true := by
  induction m generalizing lo with
  | nil => simp [Memory.put, Memory.wfFrom, hl, ha, hw]
  | cons c m ih =>
    obtain ⟨b, v⟩ := c
    simp only [Memory.wfFrom, Bool.and_eq_true, decide_eq_true_eq] at h
    simp only [Memory.put]
    split
    · simp only [Memory.wfFrom, Bool.and_eq_true, decide_eq_true_eq]
      exact ⟨⟨⟨hl, ha⟩, hw⟩, ⟨⟨by omega, h.1.1.2⟩, h.1.2⟩, h.2⟩
    · split
      · next hb =>
        subst hb
        simp only [Memory.wfFrom, Bool.and_eq_true, decide_eq_true_eq]
        exact ⟨⟨⟨hl, ha⟩, hw⟩, h.2⟩
      · simp only [Memory.wfFrom, Bool.and_eq_true, decide_eq_true_eq]
        exact ⟨h.1, ih h.2 (by omega)⟩

/-- A write inside [0, 4095] keeps the canonical form. -/
theorem Memory.wf_write {m : Memory} {a : Nat} {w : Byte} (h : m.wf = true) (ha : a < Config.memSize) :
    (m.write a w).wf = true := by
  unfold Memory.write
  split
  · exact Memory.wfFrom_drop h
  · next hw => exact Memory.wfFrom_put h (Nat.zero_le a) ha hw

theorem Memory.wf_writeBytes {m : Memory} {dst : Nat} {bs : List Byte} (h : m.wf = true)
    (hb : dst + bs.length ≤ Config.memSize) : (m.writeBytes dst bs).wf = true := by
  induction bs generalizing m dst with
  | nil => exact h
  | cons b bs ih =>
    simp only [List.length_cons] at hb
    exact ih (Memory.wf_write h (by omega)) (by omega)

theorem Memory.wf_writeSlice {m m' : Memory} {dst : Nat} {bs : List Byte} (h : m.wf = true)
    (hs : m.writeSlice dst bs = some m') : m'.wf = true := by
  unfold Memory.writeSlice at hs
  split at hs
  · next hb => cases hs; exact Memory.wf_writeBytes h hb
  · cases hs

/-- Reset's memory has the canonical form: it lists nothing. -/
theorem Memory.wf_reset : State.reset.mem.wf = true := rfl

/-- Equal memories are equal data: two canonical memories that read alike everywhere are the same list. -/
theorem Memory.ext_read {m m' : Memory} {lo : Nat} (h : m.wfFrom lo = true) (h' : m'.wfFrom lo = true)
    (hr : ∀ a, m.read a = m'.read a) : m = m' := by
  induction m generalizing m' lo with
  | nil =>
    cases m' with
    | nil => rfl
    | cons c m' =>
      obtain ⟨b, v⟩ := c
      simp only [Memory.wfFrom, Bool.and_eq_true, decide_eq_true_eq] at h'
      have := hr b
      simp only [Memory.read, if_true] at this
      exact absurd this.symm h'.1.2
  | cons c m ih =>
    obtain ⟨a, v⟩ := c
    simp only [Memory.wfFrom, Bool.and_eq_true, decide_eq_true_eq] at h
    have ha := hr a
    simp only [Memory.read, if_true] at ha
    cases m' with
    | nil => exact absurd ha h.1.2
    | cons c' m' =>
      obtain ⟨b, w⟩ := c'
      simp only [Memory.wfFrom, Bool.and_eq_true, decide_eq_true_eq] at h'
      have hb := hr b
      simp only [Memory.read, if_true] at hb
      by_cases hab : b = a
      · subst hab
        simp only [Memory.read, if_true] at ha
        subst ha
        congr 1
        refine ih h.2 h'.2 fun x => ?_
        by_cases hx : b = x
        · subst hx
          rw [Memory.read_below h.2 (by omega), Memory.read_below h'.2 (by omega)]
        · have := hr x
          simpa only [Memory.read, hx, if_false] using this
      · exfalso
        rcases Nat.lt_or_gt_of_ne hab with hlt | hgt
        · have hne : ¬ a = b := fun e => hab e.symm
          simp only [hne, if_false] at hb
          rw [Memory.read_below h.2 (by omega)] at hb
          exact h'.1.2 hb.symm
        · simp only [Memory.read, hab, if_false] at ha
          rw [Memory.read_below h'.2 (by omega)] at ha
          exact h.1.2 ha

/-! ### Blocks -/

/-- A block read inside M answers its bytes in order. -/
theorem readBlock_ok {m : Memory} {a n : Nat} (h : n = 0 ∨ a + n ≤ 4096) :
    readBlock m a n = .ok ((List.range n).map (fun r => m.read (a + r))) := by
  induction n generalizing a with
  | zero => rfl
  | succ n ih =>
    have ha : ¬ a > 4095 := by omega
    simp only [readBlock, memRead, ha, if_false, ih (a := a + 1) (by omega), List.range_succ_eq_map, List.map_cons,
      List.map_map, Nat.add_zero]
    congr 2
    refine List.map_congr_left fun r _ => ?_
    simp only [Function.comp, Nat.succ_eq_add_one]
    congr 1; omega

/-- A block read that leaves M raises ReadBounds (R187). -/
theorem readBlock_error {m : Memory} {a n : Nat} (h : n ≠ 0 ∧ 4096 < a + n) : readBlock m a n = .error .readBounds := by
  induction n generalizing a with
  | zero => omega
  | succ n ih =>
    by_cases ha : a > 4095
    · simp only [readBlock, memRead, ha, if_true]
    · simp only [readBlock, memRead, ha, if_false, ih (a := a + 1) (by omega)]

/-- A block write inside M writes all its bytes. -/
theorem writeBlock_ok {m : Memory} {a : Nat} {bs : List Byte} (h : a + bs.length ≤ 4096) :
    writeBlock m a bs = .ok (m.writeBytes a bs) := by
  induction bs generalizing m a with
  | nil => rfl
  | cons b bs ih =>
    simp only [List.length_cons] at h
    have ha : ¬ a > 4095 := by omega
    simp only [writeBlock, memWrite, ha, if_false, Memory.writeBytes]
    exact ih (by omega)

/-- A block write that leaves M raises WriteBounds (R187). -/
theorem writeBlock_error {m : Memory} {a : Nat} {bs : List Byte} (h : bs ≠ [] ∧ 4096 < a + bs.length) :
    writeBlock m a bs = .error .writeBounds := by
  induction bs generalizing m a with
  | nil => simp at h
  | cons b bs ih =>
    simp only [List.length_cons] at h
    by_cases ha : a > 4095
    · simp only [writeBlock, memWrite, ha, if_true]
    · simp only [writeBlock, memWrite, ha, if_false]
      refine ih ⟨?_, by omega⟩
      rintro rfl
      simp only [List.length_nil] at h
      omega

/-- A block write that succeeds keeps the canonical form. -/
theorem writeBlock_wf {m m' : Memory} {a : Nat} {bs : List Byte} (h : m.wf = true) (hw : writeBlock m a bs = .ok m') :
    m'.wf = true := by
  by_cases hb : a + bs.length ≤ 4096
  · rw [writeBlock_ok hb] at hw
    cases hw
    exact Memory.wf_writeBytes h hb
  · by_cases hn : bs = []
    · subst hn
      cases hw
      exact h
    · rw [writeBlock_error ⟨hn, by omega⟩] at hw
      cases hw

/-- A block read can raise nothing but ReadBounds (R187). -/
theorem readBlock_error_kind {m : Memory} {a n : Nat} {k : FatalKind} (h : readBlock m a n = .error k) : k = .readBounds := by
  by_cases hb : n = 0 ∨ a + n ≤ 4096
  · rw [readBlock_ok hb] at h
    cases h
  · rw [readBlock_error (by omega)] at h
    cases h
    rfl

/-- A block write can raise nothing but WriteBounds (R187). -/
theorem writeBlock_error_kind {m : Memory} {a : Nat} {bs : List Byte} {k : FatalKind} (h : writeBlock m a bs = .error k) :
    k = .writeBounds := by
  by_cases hb : a + bs.length ≤ 4096
  · rw [writeBlock_ok hb] at h
    cases h
  · by_cases hn : bs = []
    · subst hn
      cases h
    · rw [writeBlock_error ⟨hn, by omega⟩] at h
      cases h
      rfl

/-- A halted state's memory has the canonical form, whatever the free values are. -/
theorem latchHalt_wf (r : FaultRecord) (s : State) : (latchHalt r s).mem.wf = true := by
  refine Memory.wf_writeBytes rfl ?_
  simp only [List.length_take, Nat.zero_add]
  exact Nat.min_le_left _ _

/-- A fetch inside M reads its two bytes, the lower address high (R55, R59). -/
theorem fetch2_ok {m : Memory} {a : Nat} (h : a ≤ 4094) : fetch2 m a = .ok (wordOfBytes (m.read a) (m.read (a + 1))) := by
  have : ¬ a > 4094 := by omega
  simp only [fetch2, this, if_false]

/-- A fetch at 0xFFF or above fails (R55). -/
theorem fetch2_error {m : Memory} {a : Nat} (h : 4094 < a) : fetch2 m a = .error .fetchBounds := by
  simp only [fetch2, gt_iff_lt, h, if_true]

end Sys2Proof.Machine
end

