-- ==== Sys2Proof/Laws/State.lean ====
section
/-! SUPPORT. One lemma per field per update of the state, true by rfl, and the register laws. -/

namespace Sys2Proof.Machine

@[simp] theorem State.setV_v (s : State) (x : Vector Byte 16) : (s.setV x).v = x := rfl
@[simp] theorem State.setV_i (s : State) (x : Vector Byte 16) : (s.setV x).i = s.i := rfl
@[simp] theorem State.setV_pc (s : State) (x : Vector Byte 16) : (s.setV x).pc = s.pc := rfl
@[simp] theorem State.setV_sp (s : State) (x : Vector Byte 16) : (s.setV x).sp = s.sp := rfl
@[simp] theorem State.setV_stk (s : State) (x : Vector Byte 16) : (s.setV x).stk = s.stk := rfl
@[simp] theorem State.setV_dt (s : State) (x : Vector Byte 16) : (s.setV x).dt = s.dt := rfl
@[simp] theorem State.setV_st (s : State) (x : Vector Byte 16) : (s.setV x).st = s.st := rfl
@[simp] theorem State.setV_fb (s : State) (x : Vector Byte 16) : (s.setV x).fb = s.fb := rfl
@[simp] theorem State.setV_mem (s : State) (x : Vector Byte 16) : (s.setV x).mem = s.mem := rfl
@[simp] theorem State.setV_wait (s : State) (x : Vector Byte 16) : (s.setV x).wait = s.wait := rfl
@[simp] theorem State.setV_halt (s : State) (x : Vector Byte 16) : (s.setV x).halt = s.halt := rfl
@[simp] theorem State.setV_env (s : State) (x : Vector Byte 16) : (s.setV x).env = s.env := rfl

@[simp] theorem State.setI_v (s : State) (x : Word) : (s.setI x).v = s.v := rfl
@[simp] theorem State.setI_i (s : State) (x : Word) : (s.setI x).i = x := rfl
@[simp] theorem State.setI_pc (s : State) (x : Word) : (s.setI x).pc = s.pc := rfl
@[simp] theorem State.setI_sp (s : State) (x : Word) : (s.setI x).sp = s.sp := rfl
@[simp] theorem State.setI_stk (s : State) (x : Word) : (s.setI x).stk = s.stk := rfl
@[simp] theorem State.setI_dt (s : State) (x : Word) : (s.setI x).dt = s.dt := rfl
@[simp] theorem State.setI_st (s : State) (x : Word) : (s.setI x).st = s.st := rfl
@[simp] theorem State.setI_fb (s : State) (x : Word) : (s.setI x).fb = s.fb := rfl
@[simp] theorem State.setI_mem (s : State) (x : Word) : (s.setI x).mem = s.mem := rfl
@[simp] theorem State.setI_wait (s : State) (x : Word) : (s.setI x).wait = s.wait := rfl
@[simp] theorem State.setI_halt (s : State) (x : Word) : (s.setI x).halt = s.halt := rfl
@[simp] theorem State.setI_env (s : State) (x : Word) : (s.setI x).env = s.env := rfl

@[simp] theorem State.setPc_v (s : State) (x : Addr) : (s.setPc x).v = s.v := rfl
@[simp] theorem State.setPc_i (s : State) (x : Addr) : (s.setPc x).i = s.i := rfl
@[simp] theorem State.setPc_pc (s : State) (x : Addr) : (s.setPc x).pc = x := rfl
@[simp] theorem State.setPc_sp (s : State) (x : Addr) : (s.setPc x).sp = s.sp := rfl
@[simp] theorem State.setPc_stk (s : State) (x : Addr) : (s.setPc x).stk = s.stk := rfl
@[simp] theorem State.setPc_dt (s : State) (x : Addr) : (s.setPc x).dt = s.dt := rfl
@[simp] theorem State.setPc_st (s : State) (x : Addr) : (s.setPc x).st = s.st := rfl
@[simp] theorem State.setPc_fb (s : State) (x : Addr) : (s.setPc x).fb = s.fb := rfl
@[simp] theorem State.setPc_mem (s : State) (x : Addr) : (s.setPc x).mem = s.mem := rfl
@[simp] theorem State.setPc_wait (s : State) (x : Addr) : (s.setPc x).wait = s.wait := rfl
@[simp] theorem State.setPc_halt (s : State) (x : Addr) : (s.setPc x).halt = s.halt := rfl
@[simp] theorem State.setPc_env (s : State) (x : Addr) : (s.setPc x).env = s.env := rfl

@[simp] theorem State.setDt_v (s : State) (x : Byte) : (s.setDt x).v = s.v := rfl
@[simp] theorem State.setDt_i (s : State) (x : Byte) : (s.setDt x).i = s.i := rfl
@[simp] theorem State.setDt_pc (s : State) (x : Byte) : (s.setDt x).pc = s.pc := rfl
@[simp] theorem State.setDt_sp (s : State) (x : Byte) : (s.setDt x).sp = s.sp := rfl
@[simp] theorem State.setDt_stk (s : State) (x : Byte) : (s.setDt x).stk = s.stk := rfl
@[simp] theorem State.setDt_dt (s : State) (x : Byte) : (s.setDt x).dt = x := rfl
@[simp] theorem State.setDt_st (s : State) (x : Byte) : (s.setDt x).st = s.st := rfl
@[simp] theorem State.setDt_fb (s : State) (x : Byte) : (s.setDt x).fb = s.fb := rfl
@[simp] theorem State.setDt_mem (s : State) (x : Byte) : (s.setDt x).mem = s.mem := rfl
@[simp] theorem State.setDt_wait (s : State) (x : Byte) : (s.setDt x).wait = s.wait := rfl
@[simp] theorem State.setDt_halt (s : State) (x : Byte) : (s.setDt x).halt = s.halt := rfl
@[simp] theorem State.setDt_env (s : State) (x : Byte) : (s.setDt x).env = s.env := rfl

@[simp] theorem State.setSt_v (s : State) (x : Byte) : (s.setSt x).v = s.v := rfl
@[simp] theorem State.setSt_i (s : State) (x : Byte) : (s.setSt x).i = s.i := rfl
@[simp] theorem State.setSt_pc (s : State) (x : Byte) : (s.setSt x).pc = s.pc := rfl
@[simp] theorem State.setSt_sp (s : State) (x : Byte) : (s.setSt x).sp = s.sp := rfl
@[simp] theorem State.setSt_stk (s : State) (x : Byte) : (s.setSt x).stk = s.stk := rfl
@[simp] theorem State.setSt_dt (s : State) (x : Byte) : (s.setSt x).dt = s.dt := rfl
@[simp] theorem State.setSt_st (s : State) (x : Byte) : (s.setSt x).st = x := rfl
@[simp] theorem State.setSt_fb (s : State) (x : Byte) : (s.setSt x).fb = s.fb := rfl
@[simp] theorem State.setSt_mem (s : State) (x : Byte) : (s.setSt x).mem = s.mem := rfl
@[simp] theorem State.setSt_wait (s : State) (x : Byte) : (s.setSt x).wait = s.wait := rfl
@[simp] theorem State.setSt_halt (s : State) (x : Byte) : (s.setSt x).halt = s.halt := rfl
@[simp] theorem State.setSt_env (s : State) (x : Byte) : (s.setSt x).env = s.env := rfl

@[simp] theorem State.setFb_v (s : State) (x : Framebuffer) : (s.setFb x).v = s.v := rfl
@[simp] theorem State.setFb_i (s : State) (x : Framebuffer) : (s.setFb x).i = s.i := rfl
@[simp] theorem State.setFb_pc (s : State) (x : Framebuffer) : (s.setFb x).pc = s.pc := rfl
@[simp] theorem State.setFb_sp (s : State) (x : Framebuffer) : (s.setFb x).sp = s.sp := rfl
@[simp] theorem State.setFb_stk (s : State) (x : Framebuffer) : (s.setFb x).stk = s.stk := rfl
@[simp] theorem State.setFb_dt (s : State) (x : Framebuffer) : (s.setFb x).dt = s.dt := rfl
@[simp] theorem State.setFb_st (s : State) (x : Framebuffer) : (s.setFb x).st = s.st := rfl
@[simp] theorem State.setFb_fb (s : State) (x : Framebuffer) : (s.setFb x).fb = x := rfl
@[simp] theorem State.setFb_mem (s : State) (x : Framebuffer) : (s.setFb x).mem = s.mem := rfl
@[simp] theorem State.setFb_wait (s : State) (x : Framebuffer) : (s.setFb x).wait = s.wait := rfl
@[simp] theorem State.setFb_halt (s : State) (x : Framebuffer) : (s.setFb x).halt = s.halt := rfl
@[simp] theorem State.setFb_env (s : State) (x : Framebuffer) : (s.setFb x).env = s.env := rfl

@[simp] theorem State.setMem_v (s : State) (x : Memory) : (s.setMem x).v = s.v := rfl
@[simp] theorem State.setMem_i (s : State) (x : Memory) : (s.setMem x).i = s.i := rfl
@[simp] theorem State.setMem_pc (s : State) (x : Memory) : (s.setMem x).pc = s.pc := rfl
@[simp] theorem State.setMem_sp (s : State) (x : Memory) : (s.setMem x).sp = s.sp := rfl
@[simp] theorem State.setMem_stk (s : State) (x : Memory) : (s.setMem x).stk = s.stk := rfl
@[simp] theorem State.setMem_dt (s : State) (x : Memory) : (s.setMem x).dt = s.dt := rfl
@[simp] theorem State.setMem_st (s : State) (x : Memory) : (s.setMem x).st = s.st := rfl
@[simp] theorem State.setMem_fb (s : State) (x : Memory) : (s.setMem x).fb = s.fb := rfl
@[simp] theorem State.setMem_mem (s : State) (x : Memory) : (s.setMem x).mem = x := rfl
@[simp] theorem State.setMem_wait (s : State) (x : Memory) : (s.setMem x).wait = s.wait := rfl
@[simp] theorem State.setMem_halt (s : State) (x : Memory) : (s.setMem x).halt = s.halt := rfl
@[simp] theorem State.setMem_env (s : State) (x : Memory) : (s.setMem x).env = s.env := rfl

@[simp] theorem State.setWait_v (s : State) (x : WaitState) : (s.setWait x).v = s.v := rfl
@[simp] theorem State.setWait_i (s : State) (x : WaitState) : (s.setWait x).i = s.i := rfl
@[simp] theorem State.setWait_pc (s : State) (x : WaitState) : (s.setWait x).pc = s.pc := rfl
@[simp] theorem State.setWait_sp (s : State) (x : WaitState) : (s.setWait x).sp = s.sp := rfl
@[simp] theorem State.setWait_stk (s : State) (x : WaitState) : (s.setWait x).stk = s.stk := rfl
@[simp] theorem State.setWait_dt (s : State) (x : WaitState) : (s.setWait x).dt = s.dt := rfl
@[simp] theorem State.setWait_st (s : State) (x : WaitState) : (s.setWait x).st = s.st := rfl
@[simp] theorem State.setWait_fb (s : State) (x : WaitState) : (s.setWait x).fb = s.fb := rfl
@[simp] theorem State.setWait_mem (s : State) (x : WaitState) : (s.setWait x).mem = s.mem := rfl
@[simp] theorem State.setWait_wait (s : State) (x : WaitState) : (s.setWait x).wait = x := rfl
@[simp] theorem State.setWait_halt (s : State) (x : WaitState) : (s.setWait x).halt = s.halt := rfl
@[simp] theorem State.setWait_env (s : State) (x : WaitState) : (s.setWait x).env = s.env := rfl

@[simp] theorem State.setEnv_v (s : State) (x : Env) : (s.setEnv x).v = s.v := rfl
@[simp] theorem State.setEnv_i (s : State) (x : Env) : (s.setEnv x).i = s.i := rfl
@[simp] theorem State.setEnv_pc (s : State) (x : Env) : (s.setEnv x).pc = s.pc := rfl
@[simp] theorem State.setEnv_sp (s : State) (x : Env) : (s.setEnv x).sp = s.sp := rfl
@[simp] theorem State.setEnv_stk (s : State) (x : Env) : (s.setEnv x).stk = s.stk := rfl
@[simp] theorem State.setEnv_dt (s : State) (x : Env) : (s.setEnv x).dt = s.dt := rfl
@[simp] theorem State.setEnv_st (s : State) (x : Env) : (s.setEnv x).st = s.st := rfl
@[simp] theorem State.setEnv_fb (s : State) (x : Env) : (s.setEnv x).fb = s.fb := rfl
@[simp] theorem State.setEnv_mem (s : State) (x : Env) : (s.setEnv x).mem = s.mem := rfl
@[simp] theorem State.setEnv_wait (s : State) (x : Env) : (s.setEnv x).wait = s.wait := rfl
@[simp] theorem State.setEnv_halt (s : State) (x : Env) : (s.setEnv x).halt = s.halt := rfl
@[simp] theorem State.setEnv_env (s : State) (x : Env) : (s.setEnv x).env = x := rfl

/-! The operations written over these updates. -/

@[simp] theorem State.advance_v (s : State) : s.advance.v = s.v := rfl
@[simp] theorem State.advance_i (s : State) : s.advance.i = s.i := rfl
@[simp] theorem State.advance_pc (s : State) : s.advance.pc = s.pc + 2 := rfl
@[simp] theorem State.advance_sp (s : State) : s.advance.sp = s.sp := rfl
@[simp] theorem State.advance_stk (s : State) : s.advance.stk = s.stk := rfl
@[simp] theorem State.advance_dt (s : State) : s.advance.dt = s.dt := rfl
@[simp] theorem State.advance_st (s : State) : s.advance.st = s.st := rfl
@[simp] theorem State.advance_fb (s : State) : s.advance.fb = s.fb := rfl
@[simp] theorem State.advance_mem (s : State) : s.advance.mem = s.mem := rfl
@[simp] theorem State.advance_wait (s : State) : s.advance.wait = s.wait := rfl
@[simp] theorem State.advance_halt (s : State) : s.advance.halt = s.halt := rfl
@[simp] theorem State.advance_env (s : State) : s.advance.env = s.env := rfl

@[simp] theorem State.skip_v (s : State) : s.skip.v = s.v := rfl
@[simp] theorem State.skip_i (s : State) : s.skip.i = s.i := rfl
@[simp] theorem State.skip_pc (s : State) : s.skip.pc = s.pc + 2 := rfl
@[simp] theorem State.skip_sp (s : State) : s.skip.sp = s.sp := rfl
@[simp] theorem State.skip_stk (s : State) : s.skip.stk = s.stk := rfl
@[simp] theorem State.skip_dt (s : State) : s.skip.dt = s.dt := rfl
@[simp] theorem State.skip_st (s : State) : s.skip.st = s.st := rfl
@[simp] theorem State.skip_fb (s : State) : s.skip.fb = s.fb := rfl
@[simp] theorem State.skip_mem (s : State) : s.skip.mem = s.mem := rfl
@[simp] theorem State.skip_wait (s : State) : s.skip.wait = s.wait := rfl
@[simp] theorem State.skip_halt (s : State) : s.skip.halt = s.halt := rfl
@[simp] theorem State.skip_env (s : State) : s.skip.env = s.env := rfl

@[simp] theorem State.skipIf_v (s : State) (c : Bool) : (s.skipIf c).v = s.v := by cases c <;> rfl
@[simp] theorem State.skipIf_i (s : State) (c : Bool) : (s.skipIf c).i = s.i := by cases c <;> rfl
@[simp] theorem State.skipIf_pc (s : State) (c : Bool) : (s.skipIf c).pc = if c then s.pc + 2 else s.pc := by
  cases c <;> rfl
@[simp] theorem State.skipIf_sp (s : State) (c : Bool) : (s.skipIf c).sp = s.sp := by cases c <;> rfl
@[simp] theorem State.skipIf_stk (s : State) (c : Bool) : (s.skipIf c).stk = s.stk := by cases c <;> rfl
@[simp] theorem State.skipIf_dt (s : State) (c : Bool) : (s.skipIf c).dt = s.dt := by cases c <;> rfl
@[simp] theorem State.skipIf_st (s : State) (c : Bool) : (s.skipIf c).st = s.st := by cases c <;> rfl
@[simp] theorem State.skipIf_fb (s : State) (c : Bool) : (s.skipIf c).fb = s.fb := by cases c <;> rfl
@[simp] theorem State.skipIf_mem (s : State) (c : Bool) : (s.skipIf c).mem = s.mem := by cases c <;> rfl
@[simp] theorem State.skipIf_wait (s : State) (c : Bool) : (s.skipIf c).wait = s.wait := by cases c <;> rfl
@[simp] theorem State.skipIf_halt (s : State) (c : Bool) : (s.skipIf c).halt = s.halt := by cases c <;> rfl
@[simp] theorem State.skipIf_env (s : State) (c : Bool) : (s.skipIf c).env = s.env := by cases c <;> rfl

@[simp] theorem State.setReg_i (s : State) (x : Nibble) (b : Byte) : (s.setReg x b).i = s.i := rfl
@[simp] theorem State.setReg_pc (s : State) (x : Nibble) (b : Byte) : (s.setReg x b).pc = s.pc := rfl
@[simp] theorem State.setReg_sp (s : State) (x : Nibble) (b : Byte) : (s.setReg x b).sp = s.sp := rfl
@[simp] theorem State.setReg_stk (s : State) (x : Nibble) (b : Byte) : (s.setReg x b).stk = s.stk := rfl
@[simp] theorem State.setReg_dt (s : State) (x : Nibble) (b : Byte) : (s.setReg x b).dt = s.dt := rfl
@[simp] theorem State.setReg_st (s : State) (x : Nibble) (b : Byte) : (s.setReg x b).st = s.st := rfl
@[simp] theorem State.setReg_fb (s : State) (x : Nibble) (b : Byte) : (s.setReg x b).fb = s.fb := rfl
@[simp] theorem State.setReg_mem (s : State) (x : Nibble) (b : Byte) : (s.setReg x b).mem = s.mem := rfl
@[simp] theorem State.setReg_wait (s : State) (x : Nibble) (b : Byte) : (s.setReg x b).wait = s.wait := rfl
@[simp] theorem State.setReg_halt (s : State) (x : Nibble) (b : Byte) : (s.setReg x b).halt = s.halt := rfl
@[simp] theorem State.setReg_env (s : State) (x : Nibble) (b : Byte) : (s.setReg x b).env = s.env := rfl

@[simp] theorem State.setRegFlag_i (s : State) (x : Nibble) (b : Byte) (c : Bool) : (s.setRegFlag x b c).i = s.i := rfl
@[simp] theorem State.setRegFlag_pc (s : State) (x : Nibble) (b : Byte) (c : Bool) : (s.setRegFlag x b c).pc = s.pc := rfl
@[simp] theorem State.setRegFlag_sp (s : State) (x : Nibble) (b : Byte) (c : Bool) : (s.setRegFlag x b c).sp = s.sp := rfl
@[simp] theorem State.setRegFlag_stk (s : State) (x : Nibble) (b : Byte) (c : Bool) : (s.setRegFlag x b c).stk = s.stk := rfl
@[simp] theorem State.setRegFlag_dt (s : State) (x : Nibble) (b : Byte) (c : Bool) : (s.setRegFlag x b c).dt = s.dt := rfl
@[simp] theorem State.setRegFlag_st (s : State) (x : Nibble) (b : Byte) (c : Bool) : (s.setRegFlag x b c).st = s.st := rfl
@[simp] theorem State.setRegFlag_fb (s : State) (x : Nibble) (b : Byte) (c : Bool) : (s.setRegFlag x b c).fb = s.fb := rfl
@[simp] theorem State.setRegFlag_mem (s : State) (x : Nibble) (b : Byte) (c : Bool) : (s.setRegFlag x b c).mem = s.mem := rfl
@[simp] theorem State.setRegFlag_wait (s : State) (x : Nibble) (b : Byte) (c : Bool) : (s.setRegFlag x b c).wait = s.wait := rfl
@[simp] theorem State.setRegFlag_halt (s : State) (x : Nibble) (b : Byte) (c : Bool) : (s.setRegFlag x b c).halt = s.halt := rfl
@[simp] theorem State.setRegFlag_env (s : State) (x : Nibble) (b : Byte) (c : Bool) : (s.setRegFlag x b c).env = s.env := rfl

@[simp] theorem State.latchInputs_v (s : State) (k : BitVec 16) (r : Byte) : (s.latchInputs k r).v = s.v := rfl
@[simp] theorem State.latchInputs_i (s : State) (k : BitVec 16) (r : Byte) : (s.latchInputs k r).i = s.i := rfl
@[simp] theorem State.latchInputs_pc (s : State) (k : BitVec 16) (r : Byte) : (s.latchInputs k r).pc = s.pc := rfl
@[simp] theorem State.latchInputs_sp (s : State) (k : BitVec 16) (r : Byte) : (s.latchInputs k r).sp = s.sp := rfl
@[simp] theorem State.latchInputs_stk (s : State) (k : BitVec 16) (r : Byte) : (s.latchInputs k r).stk = s.stk := rfl
@[simp] theorem State.latchInputs_dt (s : State) (k : BitVec 16) (r : Byte) : (s.latchInputs k r).dt = s.dt := rfl
@[simp] theorem State.latchInputs_st (s : State) (k : BitVec 16) (r : Byte) : (s.latchInputs k r).st = s.st := rfl
@[simp] theorem State.latchInputs_fb (s : State) (k : BitVec 16) (r : Byte) : (s.latchInputs k r).fb = s.fb := rfl
@[simp] theorem State.latchInputs_mem (s : State) (k : BitVec 16) (r : Byte) : (s.latchInputs k r).mem = s.mem := rfl
@[simp] theorem State.latchInputs_wait (s : State) (k : BitVec 16) (r : Byte) : (s.latchInputs k r).wait = s.wait := rfl
@[simp] theorem State.latchInputs_halt (s : State) (k : BitVec 16) (r : Byte) : (s.latchInputs k r).halt = s.halt := rfl
@[simp] theorem State.latchInputs_env (s : State) (k : BitVec 16) (r : Byte) :
    (s.latchInputs k r).env = { s.env with keysHeld := k, rnd := r } := rfl

@[simp] theorem State.setScript_v (s : State) (es : List Event) : (s.setScript es).v = s.v := rfl
@[simp] theorem State.setScript_i (s : State) (es : List Event) : (s.setScript es).i = s.i := rfl
@[simp] theorem State.setScript_pc (s : State) (es : List Event) : (s.setScript es).pc = s.pc := rfl
@[simp] theorem State.setScript_sp (s : State) (es : List Event) : (s.setScript es).sp = s.sp := rfl
@[simp] theorem State.setScript_stk (s : State) (es : List Event) : (s.setScript es).stk = s.stk := rfl
@[simp] theorem State.setScript_dt (s : State) (es : List Event) : (s.setScript es).dt = s.dt := rfl
@[simp] theorem State.setScript_st (s : State) (es : List Event) : (s.setScript es).st = s.st := rfl
@[simp] theorem State.setScript_fb (s : State) (es : List Event) : (s.setScript es).fb = s.fb := rfl
@[simp] theorem State.setScript_mem (s : State) (es : List Event) : (s.setScript es).mem = s.mem := rfl
@[simp] theorem State.setScript_wait (s : State) (es : List Event) : (s.setScript es).wait = s.wait := rfl
@[simp] theorem State.setScript_halt (s : State) (es : List Event) : (s.setScript es).halt = s.halt := rfl
@[simp] theorem State.setScript_env (s : State) (es : List Event) : (s.setScript es).env = { s.env with script := es } := rfl

@[simp] theorem State.drawOne_v (s : State) : s.drawOne.v = s.v := rfl
@[simp] theorem State.drawOne_i (s : State) : s.drawOne.i = s.i := rfl
@[simp] theorem State.drawOne_pc (s : State) : s.drawOne.pc = s.pc := rfl
@[simp] theorem State.drawOne_sp (s : State) : s.drawOne.sp = s.sp := rfl
@[simp] theorem State.drawOne_stk (s : State) : s.drawOne.stk = s.stk := rfl
@[simp] theorem State.drawOne_dt (s : State) : s.drawOne.dt = s.dt := rfl
@[simp] theorem State.drawOne_st (s : State) : s.drawOne.st = s.st := rfl
@[simp] theorem State.drawOne_fb (s : State) : s.drawOne.fb = s.fb := rfl
@[simp] theorem State.drawOne_mem (s : State) : s.drawOne.mem = s.mem := rfl
@[simp] theorem State.drawOne_wait (s : State) : s.drawOne.wait = s.wait := rfl
@[simp] theorem State.drawOne_halt (s : State) : s.drawOne.halt = s.halt := rfl
@[simp] theorem State.drawOne_env (s : State) : s.drawOne.env = { s.env with drawn := s.env.drawn + 1 } := rfl

@[simp] theorem timerTick_v (s : State) : (timerTick s).v = s.v := rfl
@[simp] theorem timerTicks_v (n : Nat) (s : State) : (timerTicks n s).v = s.v := rfl
@[simp] theorem timerTick_i (s : State) : (timerTick s).i = s.i := rfl
@[simp] theorem timerTicks_i (n : Nat) (s : State) : (timerTicks n s).i = s.i := rfl
@[simp] theorem timerTick_pc (s : State) : (timerTick s).pc = s.pc := rfl
@[simp] theorem timerTicks_pc (n : Nat) (s : State) : (timerTicks n s).pc = s.pc := rfl
@[simp] theorem timerTick_sp (s : State) : (timerTick s).sp = s.sp := rfl
@[simp] theorem timerTicks_sp (n : Nat) (s : State) : (timerTicks n s).sp = s.sp := rfl
@[simp] theorem timerTick_stk (s : State) : (timerTick s).stk = s.stk := rfl
@[simp] theorem timerTicks_stk (n : Nat) (s : State) : (timerTicks n s).stk = s.stk := rfl
@[simp] theorem timerTick_dt (s : State) : (timerTick s).dt = timerDown s.dt := rfl
@[simp] theorem timerTicks_dt (n : Nat) (s : State) : (timerTicks n s).dt = timerDownBy n s.dt := rfl
@[simp] theorem timerTick_st (s : State) : (timerTick s).st = timerDown s.st := rfl
@[simp] theorem timerTicks_st (n : Nat) (s : State) : (timerTicks n s).st = timerDownBy n s.st := rfl
@[simp] theorem timerTick_fb (s : State) : (timerTick s).fb = s.fb := rfl
@[simp] theorem timerTicks_fb (n : Nat) (s : State) : (timerTicks n s).fb = s.fb := rfl
@[simp] theorem timerTick_mem (s : State) : (timerTick s).mem = s.mem := rfl
@[simp] theorem timerTicks_mem (n : Nat) (s : State) : (timerTicks n s).mem = s.mem := rfl
@[simp] theorem timerTick_wait (s : State) : (timerTick s).wait = s.wait := rfl
@[simp] theorem timerTicks_wait (n : Nat) (s : State) : (timerTicks n s).wait = s.wait := rfl
@[simp] theorem timerTick_halt (s : State) : (timerTick s).halt = s.halt := rfl
@[simp] theorem timerTicks_halt (n : Nat) (s : State) : (timerTicks n s).halt = s.halt := rfl
@[simp] theorem timerTick_env (s : State) : (timerTick s).env = s.env := rfl
@[simp] theorem timerTicks_env (n : Nat) (s : State) : (timerTicks n s).env = s.env := rfl

@[simp] theorem emitDiag_v (a : Addr) (w : Word) (s : State) : (emitDiag a w s).v = s.v := rfl
@[simp] theorem emitDiag_i (a : Addr) (w : Word) (s : State) : (emitDiag a w s).i = s.i := rfl
@[simp] theorem emitDiag_pc (a : Addr) (w : Word) (s : State) : (emitDiag a w s).pc = s.pc := rfl
@[simp] theorem emitDiag_sp (a : Addr) (w : Word) (s : State) : (emitDiag a w s).sp = s.sp := rfl
@[simp] theorem emitDiag_stk (a : Addr) (w : Word) (s : State) : (emitDiag a w s).stk = s.stk := rfl
@[simp] theorem emitDiag_dt (a : Addr) (w : Word) (s : State) : (emitDiag a w s).dt = s.dt := rfl
@[simp] theorem emitDiag_st (a : Addr) (w : Word) (s : State) : (emitDiag a w s).st = s.st := rfl
@[simp] theorem emitDiag_fb (a : Addr) (w : Word) (s : State) : (emitDiag a w s).fb = s.fb := rfl
@[simp] theorem emitDiag_mem (a : Addr) (w : Word) (s : State) : (emitDiag a w s).mem = s.mem := rfl
@[simp] theorem emitDiag_wait (a : Addr) (w : Word) (s : State) : (emitDiag a w s).wait = s.wait := rfl
@[simp] theorem emitDiag_halt (a : Addr) (w : Word) (s : State) : (emitDiag a w s).halt = s.halt := rfl
@[simp] theorem emitDiag_env (a : Addr) (w : Word) (s : State) :
    (emitDiag a w s).env = { s.env with diag := s.env.diag ++ [⟨a, w⟩] } := rfl

/-- The only field of a halted state that is not free is its record. -/
@[simp] theorem latchHalt_halt (r : FaultRecord) (s : State) : (latchHalt r s).halt = some r := rfl
@[simp] theorem latchHalt_env (r : FaultRecord) (s : State) :
    (latchHalt r s).env = { s.env with drawn := s.env.drawn + 1 } := rfl
@[simp] theorem endInstr_ok (ins : Instr) (s t : State) : endInstr ins s (.ok t) = t := rfl
@[simp] theorem endInstr_error (ins : Instr) (s : State) (k : FatalKind) :
    endInstr ins s (.error k) = latchHalt ⟨k, s.pc - 2, some (encode ins)⟩ s := rfl

/-- A register reads what was last written to it, and a write changes no other register (R21). -/
theorem State.reg_setReg (s : State) (x y : Nibble) (b : Byte) :
    (s.setReg x b).reg y = if y = x then b else s.reg y := by
  simp only [State.reg, State.setReg, State.setV, Vector.getElem_set, BitVec.toNat_inj, eq_comm]

@[simp] theorem State.reg_setReg_self (s : State) (x : Nibble) (b : Byte) : (s.setReg x b).reg x = b := by
  simp [State.reg_setReg]

theorem State.reg_setReg_ne (s : State) {x y : Nibble} (b : Byte) (h : y ≠ x) : (s.setReg x b).reg y = s.reg y := by
  simp [State.reg_setReg, h]

/-- After a flag-writing instruction VF is the flag, V[x] the result unless x is F, the rest as before (R120). -/
theorem State.reg_setRegFlag (s : State) (x y : Nibble) (b : Byte) (c : Bool) :
    (s.setRegFlag x b c).reg y = if y = vf then flagByte c else if y = x then b else s.reg y := by
  simp only [State.setRegFlag, State.reg_setReg]

/-- A state whose register file is that of another reads alike. -/
theorem State.reg_of_v_eq {s t : State} (h : t.v = s.v) (x : Nibble) : t.reg x = s.reg x := by
  simp only [State.reg, h]

/-- A state whose memory is that of another reads alike. -/
theorem State.byteAt_of_mem_eq {s t : State} (h : t.mem = s.mem) (a : Nat) : t.byteAt a = s.byteAt a := by
  simp only [State.byteAt, h]

/-! Registers and memory through the updates that do not touch them. -/

@[simp] theorem State.reg_setI (s : State) (w : Word) (x : Nibble) : (s.setI w).reg x = s.reg x := rfl
@[simp] theorem State.byteAt_setI (s : State) (w : Word) (j : Nat) : (s.setI w).byteAt j = s.byteAt j := rfl
@[simp] theorem State.reg_setPc (s : State) (a : Addr) (x : Nibble) : (s.setPc a).reg x = s.reg x := rfl
@[simp] theorem State.byteAt_setPc (s : State) (a : Addr) (j : Nat) : (s.setPc a).byteAt j = s.byteAt j := rfl
@[simp] theorem State.reg_setDt (s : State) (b : Byte) (x : Nibble) : (s.setDt b).reg x = s.reg x := rfl
@[simp] theorem State.byteAt_setDt (s : State) (b : Byte) (j : Nat) : (s.setDt b).byteAt j = s.byteAt j := rfl
@[simp] theorem State.reg_setSt (s : State) (b : Byte) (x : Nibble) : (s.setSt b).reg x = s.reg x := rfl
@[simp] theorem State.byteAt_setSt (s : State) (b : Byte) (j : Nat) : (s.setSt b).byteAt j = s.byteAt j := rfl
@[simp] theorem State.reg_setFb (s : State) (f : Framebuffer) (x : Nibble) : (s.setFb f).reg x = s.reg x := rfl
@[simp] theorem State.byteAt_setFb (s : State) (f : Framebuffer) (j : Nat) : (s.setFb f).byteAt j = s.byteAt j := rfl
@[simp] theorem State.reg_setMem (s : State) (m : Memory) (x : Nibble) : (s.setMem m).reg x = s.reg x := rfl
@[simp] theorem State.reg_setWait (s : State) (w : WaitState) (x : Nibble) : (s.setWait w).reg x = s.reg x := rfl
@[simp] theorem State.byteAt_setWait (s : State) (w : WaitState) (j : Nat) : (s.setWait w).byteAt j = s.byteAt j := rfl
@[simp] theorem State.reg_setEnv (s : State) (e : Env) (x : Nibble) : (s.setEnv e).reg x = s.reg x := rfl
@[simp] theorem State.byteAt_setEnv (s : State) (e : Env) (j : Nat) : (s.setEnv e).byteAt j = s.byteAt j := rfl
@[simp] theorem State.reg_advance (s : State) (x : Nibble) : (s.advance).reg x = s.reg x := rfl
@[simp] theorem State.byteAt_advance (s : State) (j : Nat) : (s.advance).byteAt j = s.byteAt j := rfl
@[simp] theorem State.reg_skip (s : State) (x : Nibble) : (s.skip).reg x = s.reg x := rfl
@[simp] theorem State.byteAt_skip (s : State) (j : Nat) : (s.skip).byteAt j = s.byteAt j := rfl
@[simp] theorem State.reg_latchInputs (s : State) (k : BitVec 16) (r : Byte) (x : Nibble) : (s.latchInputs k r).reg x = s.reg x := rfl
@[simp] theorem State.byteAt_latchInputs (s : State) (k : BitVec 16) (r : Byte) (j : Nat) : (s.latchInputs k r).byteAt j = s.byteAt j := rfl
@[simp] theorem State.reg_setScript (s : State) (es : List Event) (x : Nibble) : (s.setScript es).reg x = s.reg x := rfl
@[simp] theorem State.byteAt_setScript (s : State) (es : List Event) (j : Nat) : (s.setScript es).byteAt j = s.byteAt j := rfl
@[simp] theorem State.reg_drawOne (s : State) (x : Nibble) : (s.drawOne).reg x = s.reg x := rfl
@[simp] theorem State.byteAt_drawOne (s : State) (j : Nat) : (s.drawOne).byteAt j = s.byteAt j := rfl
@[simp] theorem State.byteAt_setMem (s : State) (m : Memory) (j : Nat) : (s.setMem m).byteAt j = m.read j := rfl
@[simp] theorem State.byteAt_setReg (s : State) (x : Nibble) (b : Byte) (j : Nat) : (s.setReg x b).byteAt j = s.byteAt j := rfl
@[simp] theorem State.byteAt_setRegFlag (s : State) (x : Nibble) (b : Byte) (c : Bool) (j : Nat) :
    (s.setRegFlag x b c).byteAt j = s.byteAt j := rfl
@[simp] theorem State.byteAt_setV (s : State) (v : Vector Byte 16) (j : Nat) : (s.setV v).byteAt j = s.byteAt j := rfl
@[simp] theorem State.reg_skipIf (s : State) (c : Bool) (x : Nibble) : (s.skipIf c).reg x = s.reg x := by cases c <;> rfl
@[simp] theorem State.byteAt_skipIf (s : State) (c : Bool) (j : Nat) : (s.skipIf c).byteAt j = s.byteAt j := by cases c <;> rfl
@[simp] theorem State.reg_timerTicks (n : Nat) (s : State) (x : Nibble) : (timerTicks n s).reg x = s.reg x := rfl
@[simp] theorem State.reg_timerTick (s : State) (x : Nibble) : (timerTick s).reg x = s.reg x := rfl
@[simp] theorem State.reg_emitDiag (a : Addr) (w : Word) (s : State) (x : Nibble) : (emitDiag a w s).reg x = s.reg x := rfl

/-- A flag leaves VF 0 or 1 (R22). -/
theorem flagByte_zero_or_one (c : Bool) : flagByte c = 0 ∨ flagByte c = 1 := by cases c <;> simp [flagByte]

end Sys2Proof.Machine
end

