-- ==== Sys2Proof/Laws/Ops.lean ====
section
/-! SUPPORT. One law per shared operation: all it can do. -/

namespace Sys2Proof.Machine

/-! ### Stack -/

/-- Push below depth 16 writes one slot and counts it (R30). -/
theorem push_ok {a : Addr} {s : State} (h : s.sp.val < 16) :
    push a s = .ok { s with stk := s.stk.set s.sp.val a h, sp := ⟨s.sp.val + 1, by omega⟩ } := by
  simp only [push, h, dif_pos]

/-- Push at depth 16 fails and writes nothing (R30). -/
theorem push_error {a : Addr} {s : State} (h : s.sp.val = 16) : push a s = .error .stackOverflow := by
  have : ¬ s.sp.val < 16 := by omega
  simp only [push, this, dif_neg, not_false_iff]

/-- Pop above depth 0 answers the top and uncounts it (R31). -/
theorem pop_ok {s : State} (h : s.sp.val ≠ 0) :
    pop s = .ok (s.stk[s.sp.val - 1]'(by have := s.sp.isLt; omega), { s with sp := ⟨s.sp.val - 1, by omega⟩ }) := by
  simp only [pop, h, dif_neg, not_false_iff]

/-- Pop at depth 0 fails and writes nothing (R31). -/
theorem pop_error {s : State} (h : s.sp.val = 0) : pop s = .error .stackUnderflow := by
  simp only [pop, h, dif_pos]

/-- Push changes only the stack (R27). -/
theorem push_cases {a : Addr} {s : State} {r : Except FatalKind State} (h : push a s = r) :
    (∃ hs : s.sp.val < 16, r = .ok { s with stk := s.stk.set s.sp.val a hs, sp := ⟨s.sp.val + 1, by omega⟩ }) ∨
    (s.sp.val = 16 ∧ r = .error .stackOverflow) := by
  by_cases hs : s.sp.val < 16
  · exact .inl ⟨hs, h ▸ push_ok hs⟩
  · have : s.sp.val = 16 := by have := s.sp.isLt; omega
    exact .inr ⟨this, h ▸ push_error this⟩

/-- Pop after Push gives the pushed address back (R30, R31). -/
theorem pop_push {a : Addr} {s t : State} (h : push a s = .ok t) : ∃ u, pop t = .ok (a, u) ∧ u.sp = s.sp := by
  rcases push_cases h with ⟨hs, ht⟩ | ⟨_, ht⟩
  · cases ht
    refine ⟨{ s with stk := s.stk.set s.sp.val a hs }, ?_, rfl⟩
    rw [pop_ok (by simp)]
    simp
  · cases ht

/-! ### Faults -/

/-- An instruction that ends without a fault leaves HALT as its own effect left it, and one that faults latches its record
(R183, R184). -/
theorem endInstr_cases (ins : Instr) (s : State) (r : Except FatalKind State) :
    (∃ t, r = .ok t ∧ endInstr ins s r = t) ∨
    (∃ k, r = .error k ∧ (endInstr ins s r).halt = some ⟨k, s.pc - 2, some (encode ins)⟩) := by
  cases r with
  | ok t => exact .inl ⟨t, rfl, rfl⟩
  | error k => exact .inr ⟨k, rfl, rfl⟩

/-- What an operation followed by a plain update answers. -/
theorem map_ok {α β : Type} {f : α → β} {r : Except FatalKind α} {b : β} (h : r.map f = .ok b) : ∃ a, r = .ok a ∧ f a = b := by
  cases r with
  | ok a => exact ⟨a, rfl, by cases h; rfl⟩
  | error k => cases h

theorem map_error {α β : Type} {f : α → β} {r : Except FatalKind α} {k : FatalKind} (h : r.map f = .error k) : r = .error k := by
  cases r with
  | ok a => cases h
  | error j => cases h; rfl

/-! ### Timers -/

/-- One decrement stops at 0 (R195). -/
theorem timerDown_toNat (t : Byte) : (timerDown t).toNat = t.toNat - 1 := by
  unfold timerDown
  split
  · next h => subst h; rfl
  · next h =>
    have : t.toNat ≠ 0 := fun e => h (BitVec.eq_of_toNat_eq (by simpa using e))
    have := t.isLt
    rw [BitVec.toNat_sub]
    simp
    omega

/-- `n` decrements stop at 0 (R195). -/
theorem timerDownBy_toNat (n : Nat) (t : Byte) : (timerDownBy n t).toNat = t.toNat - n := by
  unfold timerDownBy
  have := t.isLt
  split
  · next h => subst h; simp
  · split
    · next h => simp; omega
    · next h =>
      rw [BitVec.toNat_sub, BitVec.toNat_ofNat]
      omega

theorem timerDownBy_zero (t : Byte) : timerDownBy 0 t = t :=
  BitVec.eq_of_toNat_eq (by rw [timerDownBy_toNat, Nat.sub_zero])

/-- A tick before `n` more is `n + 1` ticks (R195). -/
theorem timerDownBy_succ (n : Nat) (t : Byte) : timerDownBy (n + 1) t = timerDownBy n (timerDown t) :=
  BitVec.eq_of_toNat_eq (by rw [timerDownBy_toNat, timerDownBy_toNat, timerDown_toNat]; omega)

theorem timerTicks_succ (n : Nat) (s : State) : timerTicks (n + 1) s = timerTicks n (timerTick s) := by
  simp only [timerTicks, timerTick, timerDownBy_succ]

theorem timerTicks_zero (s : State) : timerTicks 0 s = s := by
  simp only [timerTicks, timerDownBy_zero]

/-! ### Register blocks -/

/-- `LD [I], Vx` moves x + 1 bytes (R144). -/
@[simp] theorem State.length_regsUpTo (s : State) (x : Nibble) : (s.regsUpTo x).length = x.toNat + 1 := by
  have := x.isLt
  simp only [State.regsUpTo, List.length_take, Vector.length_toList]
  omega

/-- Byte r of the block is Vr (R144). -/
theorem State.getD_regsUpTo (s : State) (x r : Nibble) (h : r.toNat ≤ x.toNat) :
    (s.regsUpTo x).getD r.toNat 0 = s.reg r := by
  have hr := r.isLt
  simp only [State.regsUpTo, State.reg, List.getD_eq_getElem?_getD]
  rw [List.getElem?_take_of_lt (by omega)]
  simp [hr]

/-- Loading a block from register `r` on fills exactly its registers, in order (R145). -/
theorem getElem_loadRegs (v : Vector Byte 16) (r : Nat) (bs : List Byte) (j : Nat) (hj : j < 16) :
    (loadRegs v r bs)[j] = if r ≤ j ∧ j < r + bs.length then bs.getD (j - r) 0 else v[j] := by
  induction bs generalizing v r with
  | nil =>
    have : ¬ (r ≤ j ∧ j < r) := by omega
    simp [loadRegs, this]
  | cons b bs ih =>
    simp only [loadRegs, List.length_cons]
    by_cases hr : r < 16
    · simp only [hr, dif_pos, ih, Vector.getElem_set]
      by_cases h0 : r = j
      · subst h0; simp
      · by_cases h1 : r + 1 ≤ j ∧ j < r + 1 + bs.length
        · have h2 : r ≤ j ∧ j < r + (bs.length + 1) := by omega
          obtain ⟨i, hi⟩ : ∃ i, j - r = i + 1 := ⟨j - r - 1, by omega⟩
          have hi' : j - (r + 1) = i := by omega
          rw [if_pos h1, if_pos h2, hi, hi', List.getD_cons_succ]
        · have h2 : ¬ (r ≤ j ∧ j < r + (bs.length + 1)) := by omega
          rw [if_neg h1, if_neg h2, if_neg h0]
    · have h2 : ¬ (r ≤ j ∧ j < r + (bs.length + 1)) := by omega
      simp only [hr, dif_neg, not_false_iff]
      rw [if_neg h2]

/-! ### Keypad -/

/-- With no key held the sample is NONE (R201). -/
theorem chooseKey_none : chooseKey 0 = none := by decide

/-- The sample is a held key, and every key before it in the priority order is not held (R201). -/
theorem chooseKey_some {held : BitVec 16} {k : Nibble} (h : chooseKey held = some k) : held.getLsbD k.toNat = true := by
  simpa using List.find?_some h

/-- Every key number occurs in the priority order, so NONE means that no key is held (R201). -/
theorem chooseKey_eq_none {held : BitVec 16} (h : chooseKey held = none) (k : Nibble) : held.getLsbD k.toNat = false := by
  have hmem : k ∈ Config.keyPriority := by revert k; decide
  simpa using List.find?_eq_none.mp h k hmem

/-- Every value of the core's `key` input is the choice of some set of held keys (R39, R200): one held key is chosen. -/
theorem chooseKey_single (k : Nibble) : chooseKey (BitVec.twoPow 16 k.toNat) = some k := by revert k; decide

/-- The comparison of the two keypad skips (R160): a sampled key that is the whole byte. -/
theorem keyIs_iff (s : State) (b : Byte) :
    s.keyIs b = true ↔ ∃ k, chooseKey s.env.keysHeld = some k ∧ k.toNat = b.toNat := by
  unfold State.keyIs State.keySample
  cases h : chooseKey s.env.keysHeld with
  | none => simp
  | some k =>
    have hk := k.isLt
    simp only [beq_iff_eq, Option.some.injEq, exists_eq_left']
    rw [keyByte, ← BitVec.toNat_inj, BitVec.toNat_setWidth]
    rw [Nat.mod_eq_of_lt (by omega)]

end Sys2Proof.Machine
end

