-- ==== Sys2Proof/Laws/Frame.lean ====
section
/-! SUPPORT. The frame of each update: what the statements' `Keeps` says of it. -/

namespace Sys2Proof.Machine

theorem Keeps.refl (regs : List Nibble) (parts : List Part) (s : State) : Keeps regs parts s s :=
  ⟨fun _ _ => rfl, fun _ => rfl, fun _ => rfl, fun _ => ⟨rfl, rfl⟩, fun _ => rfl, fun _ => rfl, fun _ => rfl,
    fun _ _ => rfl, fun _ => rfl, rfl, rfl⟩

theorem Keeps.trans {regs : List Nibble} {parts : List Part} {s t u : State} (h : Keeps regs parts s t)
    (k : Keeps regs parts t u) : Keeps regs parts s u :=
  ⟨fun r hr => (k.reg r hr).trans (h.reg r hr), fun hp => (k.pc hp).trans (h.pc hp), fun hp => (k.i hp).trans (h.i hp),
    fun hp => ⟨(k.stack hp).1.trans (h.stack hp).1, (k.stack hp).2.trans (h.stack hp).2⟩,
    fun hp => (k.dt hp).trans (h.dt hp), fun hp => (k.st hp).trans (h.st hp), fun hp => (k.fb hp).trans (h.fb hp),
    fun hp a => (k.mem hp a).trans (h.mem hp a), fun hp => (k.wait hp).trans (h.wait hp), k.halt.trans h.halt,
    k.env.trans h.env⟩

/-- A frame that excepts more is weaker. -/
theorem Keeps.mono {regs regs' : List Nibble} {parts parts' : List Part} {s t : State} (h : Keeps regs parts s t)
    (hr : ∀ r, r ∈ regs → r ∈ regs') (hp : ∀ p, p ∈ parts → p ∈ parts') : Keeps regs' parts' s t :=
  ⟨fun r h1 => h.reg r fun h2 => h1 (hr r h2), fun h1 => h.pc fun h2 => h1 (hp _ h2), fun h1 => h.i fun h2 => h1 (hp _ h2),
    fun h1 => h.stack fun h2 => h1 (hp _ h2), fun h1 => h.dt fun h2 => h1 (hp _ h2), fun h1 => h.st fun h2 => h1 (hp _ h2),
    fun h1 => h.fb fun h2 => h1 (hp _ h2), fun h1 => h.mem fun h2 => h1 (hp _ h2), fun h1 => h.wait fun h2 => h1 (hp _ h2),
    h.halt, h.env⟩

theorem keeps_setReg (s : State) (x : Nibble) (b : Byte) : Keeps [x] [] s (s.setReg x b) := by
  refine { Keeps.refl [x] [] s with reg := fun r hr => ?_ }
  exact State.reg_setReg_ne s b (by simpa using hr)

theorem keeps_setRegFlag (s : State) (x : Nibble) (b : Byte) (c : Bool) : Keeps [x, vf] [] s (s.setRegFlag x b c) :=
  ((keeps_setReg s x b).mono (by simp) (by simp)).trans
    ((keeps_setReg (s.setReg x b) vf (flagByte c)).mono (by simp) (by simp))

theorem keeps_setPc (s : State) (a : Addr) : Keeps [] [.pc] s (s.setPc a) :=
  { Keeps.refl [] [.pc] s with pc := fun h => absurd (List.mem_singleton.2 rfl) h }

theorem keeps_skipIf (s : State) (c : Bool) : Keeps [] [.pc] s (s.skipIf c) := by
  cases c
  · exact Keeps.refl _ _ s
  · exact keeps_setPc s _

theorem keeps_setI (s : State) (w : Word) : Keeps [] [.i] s (s.setI w) :=
  { Keeps.refl [] [.i] s with i := fun h => absurd (List.mem_singleton.2 rfl) h }

theorem keeps_setDt (s : State) (b : Byte) : Keeps [] [.dt] s (s.setDt b) :=
  { Keeps.refl [] [.dt] s with dt := fun h => absurd (List.mem_singleton.2 rfl) h }

theorem keeps_setSt (s : State) (b : Byte) : Keeps [] [.st] s (s.setSt b) :=
  { Keeps.refl [] [.st] s with st := fun h => absurd (List.mem_singleton.2 rfl) h }

theorem keeps_setFb (s : State) (f : Framebuffer) : Keeps [] [.fb] s (s.setFb f) :=
  { Keeps.refl [] [.fb] s with fb := fun h => absurd (List.mem_singleton.2 rfl) h }

theorem keeps_setMem (s : State) (m : Memory) : Keeps [] [.mem] s (s.setMem m) :=
  { Keeps.refl [] [.mem] s with mem := fun h => absurd (List.mem_singleton.2 rfl) h }

theorem keeps_setWait (s : State) (w : WaitState) : Keeps [] [.wait] s (s.setWait w) :=
  { Keeps.refl [] [.wait] s with wait := fun h => absurd (List.mem_singleton.2 rfl) h }

end Sys2Proof.Machine
end

