-- ==== Sys2Proof/Laws/Step.lean ====
section
/-! SUPPORT. What a step can do, event by event. -/

namespace Sys2Proof.Machine

/-- A scripted event is the next one (log 1). -/
theorem step_script {s : State} {e : Event} {es : List Event} (h : s.env.script = e :: es) :
    step s = applyEvent e (s.setScript es) := by
  simp only [step, nextEvent, h]

/-- With an empty script the environment is free (log 1). -/
theorem step_free {s : State} (h : s.env.script = []) : step s = freeRound s := by
  simp only [step, nextEvent, h]

theorem applyEvent_tick_running {s : State} (h : s.halt = none) : applyEvent .timerTick s = .next (timerTick s) := by
  simp only [applyEvent, h]

theorem applyEvent_tick_halted {s : State} {r : FaultRecord} (h : s.halt = some r) :
    applyEvent .timerTick s = .fault (.halted r) := by
  simp only [applyEvent, h]

theorem applyEvent_step_halted {s : State} {r : FaultRecord} (h : s.halt = some r) (k : BitVec 16) (b : Byte) :
    applyEvent (.step k b) s = .fault (.halted r) := by
  simp only [applyEvent, h]

theorem applyEvent_step_waiting {s : State} {x : Nibble} (h : s.halt = none) (hw : s.wait = .waitKey x) (k : BitVec 16)
    (b : Byte) : applyEvent (.step k b) s = .next (stepWait x (s.latchInputs k b)) := by
  simp only [applyEvent, h, hw]

theorem applyEvent_step_running {s : State} (h : s.halt = none) (hw : s.wait = .run) (k : BitVec 16) (b : Byte) :
    applyEvent (.step k b) s = stepRun (s.latchInputs k b) := by
  simp only [applyEvent, h, hw]

/-- The word at PC, when it can be fetched (R55). -/
def State.fetched (s : State) : Word := wordOfBytes (s.byteAt s.pc.toNat) (s.byteAt (s.pc.toNat + 1))

theorem stepRun_instr {s : State} {i : Instr} (hp : s.pc.toNat ≤ 4094) (hd : decodeWord s.fetched = .ok i) :
    stepRun s = exec i s.advance := by
  simp only [State.fetched, State.byteAt] at hd
  simp only [stepRun, fetch2_ok hp, hd]

theorem stepRun_unknown {s : State} {e : DecodeReject} (hp : s.pc.toNat ≤ 4094) (hd : decodeWord s.fetched = .error e) :
    stepRun s = .next (emitDiag s.pc s.fetched s.advance) := by
  simp only [State.fetched, State.byteAt] at hd
  simp only [stepRun, fetch2_ok hp, hd, takeFault, State.fetched, State.byteAt]

theorem stepRun_fetchFault {s : State} (hp : 4094 < s.pc.toNat) :
    stepRun s = .next (latchHalt ⟨.fetchBounds, s.pc, none⟩ s) := by
  simp only [stepRun, fetch2_error hp, takeFault]

/-- All a Step in the RUN state can do (R74): a fetch fault, a no-operation with a diagnostic, or one instruction. -/
theorem stepRun_cases (s : State) :
    (s.pc = 0xFFF ∧ stepRun s = .next (latchHalt ⟨.fetchBounds, 0xFFF, none⟩ s)) ∨
    (s.pc.toNat ≤ 4094 ∧ decodeOp s.fetched = none ∧ stepRun s = .next (emitDiag s.pc s.fetched s.advance)) ∨
    (∃ i, s.pc.toNat ≤ 4094 ∧ decodeWord s.fetched = .ok i ∧ stepRun s = exec i s.advance) := by
  by_cases hp : s.pc.toNat ≤ 4094
  · rcases decodeWord_cases s.fetched with ⟨i, _, hd⟩ | ⟨ho, hd⟩
    · exact .inr (.inr ⟨i, hp, hd, stepRun_instr hp hd⟩)
    · exact .inr (.inl ⟨hp, ho, stepRun_unknown hp hd⟩)
  · have hpc : s.pc = 0xFFF := BitVec.eq_of_toNat_eq (by have := s.pc.isLt; simp; omega)
    refine .inl ⟨hpc, ?_⟩
    rw [stepRun_fetchFault (by omega), hpc]

/-- All a Reset can do (R220, R222). -/
theorem resetEvent_ok {rom font : List Byte} (s : State) (hr : rom.length ≤ 3584) (hf : font.length = 80) :
    resetEvent rom font s = .next { State.reset with
      mem := (Memory.writeBytes [] 0x050 font).writeBytes 0x200 rom, env := s.env } := by
  have h5 : 512 + rom.length ≤ 4096 := by omega
  simp [resetEvent, Event.wellFormed, romFits, fontFits, hr, hf, Memory.writeSlice, h5]

theorem resetEvent_refused {rom font : List Byte} (s : State) (h : ¬ (rom.length ≤ 3584 ∧ font.length = 80)) :
    resetEvent rom font s = .refused .resetPrecondition := by
  simp only [resetEvent, Event.wellFormed, romFits, fontFits, Bool.and_eq_true, decide_eq_true_eq, beq_iff_eq]
  rw [if_neg h]

/-- The memory after a Reset, address by address (R41, R220). -/
theorem read_resetMemory {rom font : List Byte} (hf : font.length = 80) (a : Nat) :
    ((Memory.writeBytes [] 0x050 font).writeBytes 0x200 rom).read a =
      if 0x050 ≤ a ∧ a < 0x0A0 then font.getD (a - 0x050) 0
      else if 0x200 ≤ a ∧ a < 0x200 + rom.length then rom.getD (a - 0x200) 0
      else 0 := by
  simp only [Memory.read_writeBytes, hf, Memory.read, Config.resetByte, Config.fontBase, Config.fontSize, Nat.reduceAdd]
  by_cases h1 : 0x050 ≤ a ∧ a < 0x0A0
  · have h2 : ¬ (0x200 ≤ a ∧ a < 0x200 + rom.length) := by omega
    rw [if_pos h1, if_neg h2, if_pos h1]
  · rw [if_neg h1, if_neg h1, if_neg h1]

/-- Reset's memory has the canonical form. -/
theorem wf_resetMemory {rom font : List Byte} (hr : rom.length ≤ 3584) (hf : font.length = 80) :
    ((Memory.writeBytes [] 0x050 font).writeBytes 0x200 rom).wf = true :=
  Memory.wf_writeBytes (Memory.wf_writeBytes rfl (by simp [hf])) (by simp; omega)

end Sys2Proof.Machine
end

