-- ==== Sys2Proof/Tests/Slice0.lean ====
section
/-! SUPPORT. The model's own tests: every row's word written out from R79's pattern, the smoke tests of WellFormed, one step
on a small state for each instruction (expected values from spec/95_test_vectors.md, whose identifier each test names), and a
witness for the hypotheses of each statement. -/

namespace Sys2Proof.Tests

open Sys2Proof.Machine

/-! ### Helpers -/

/-- The reset state with the registers set. -/
def regsOn (s : State) : List (Nibble × Byte) → State
  | [] => s
  | (x, b) :: l => regsOn (s.setReg x b) l

/-- The reset state with the registers set and the word at 0x200, about to be stepped with no key and rnd = 0. -/
def prog (w : Nat) (regs : List (Nibble × Byte)) : State := (regsOn State.reset regs).withFetchWord 16 w

/-- The same with the address register and some bytes of memory set. -/
def progMem (w : Nat) (regs : List (Nibble × Byte)) (i : Word) (a : Nat) (bytes : List Byte) : State :=
  (((regsOn State.reset regs).setI i).setMem (Memory.writeBytes [] a bytes)).withFetchWord 16 w

/-- The same with the Step's inputs. -/
def progIn (w : Nat) (regs : List (Nibble × Byte)) (keysHeld : BitVec 16) (rnd : Byte) : State :=
  ((regsOn State.reset regs).latchInputs keysHeld rnd).withFetchWord 16 w

/-- The keys held, given one by one. -/
def held : List Nat → BitVec 16
  | [] => 0
  | k :: ks => BitVec.twoPow 16 k ||| held ks

/-- One step ends in a next state of which `f` holds. -/
def ends (s : State) (f : State → Bool) : Bool :=
  match step s with
  | .next t => f t
  | _ => false

/-- One event ends in a next state of which `f` holds. -/
def event (e : Event) (s : State) (f : State → Bool) : Bool := ends { s with env := { s.env with script := [e] } } f

/-! ### Decoding: one word per row, written out from R79's patterns and R71's fields -/

theorem test_decode_system :
    decodeWord 0b0000000011100000 = .ok .cls ∧ decodeWord 0b0000000011101110 = .ok .ret := ⟨rfl, rfl⟩

theorem test_decode_control_flow :
    decodeWord 0b0001101010111100 = .ok (.jpNnn 0xABC) ∧ decodeWord 0b0010101010111100 = .ok (.callNnn 0xABC) ∧
    decodeWord 0b0011010011000101 = .ok (.seVxKk 0x4 0xC5) ∧ decodeWord 0b0100010011000101 = .ok (.sneVxKk 0x4 0xC5) ∧
    decodeWord 0b0101000100100000 = .ok (.seVxVy 0x1 0x2) ∧ decodeWord 0b1001000100100000 = .ok (.sneVxVy 0x1 0x2) ∧
    decodeWord 0b1011001000110100 = .ok (.jpV0Nnn 0x234) := ⟨rfl, rfl, rfl, rfl, rfl, rfl, rfl⟩

theorem test_decode_alu :
    decodeWord 0b0110000011111111 = .ok (.ldVxKk 0x0 0xFF) ∧ decodeWord 0b0111000100000101 = .ok (.addVxKk 0x1 0x05) ∧
    decodeWord 0b1000000100100000 = .ok (.ldVxVy 0x1 0x2) ∧ decodeWord 0b1000101010110001 = .ok (.orVxVy 0xA 0xB) ∧
    decodeWord 0b1000101010110010 = .ok (.andVxVy 0xA 0xB) ∧ decodeWord 0b1000101010110011 = .ok (.xorVxVy 0xA 0xB) ∧
    decodeWord 0b1000101010110100 = .ok (.addVxVy 0xA 0xB) ∧ decodeWord 0b1000101010110101 = .ok (.subVxVy 0xA 0xB) ∧
    decodeWord 0b1000101010110110 = .ok (.shrVx 0xA 0xB) ∧ decodeWord 0b1000101010110111 = .ok (.subnVxVy 0xA 0xB) ∧
    decodeWord 0b1000101010111110 = .ok (.shlVx 0xA 0xB) ∧ decodeWord 0b1100001100001111 = .ok (.rndVxKk 0x3 0x0F) :=
  ⟨rfl, rfl, rfl, rfl, rfl, rfl, rfl, rfl, rfl, rfl, rfl, rfl⟩

theorem test_decode_memory :
    decodeWord 0b1010001100000000 = .ok (.ldINnn 0x300) ∧ decodeWord 0b1111010100011110 = .ok (.addIVx 0x5) ∧
    decodeWord 0b1111010100101001 = .ok (.ldFVx 0x5) ∧ decodeWord 0b1111010100110011 = .ok (.ldBVx 0x5) ∧
    decodeWord 0b1111001101010101 = .ok (.ldMemIVx 0x3) ∧ decodeWord 0b1111011101100101 = .ok (.ldVxMemI 0x7) :=
  ⟨rfl, rfl, rfl, rfl, rfl, rfl⟩

theorem test_decode_display : decodeWord 0b1101000100100101 = .ok (.drwVxVyN 0x1 0x2 0x5) := rfl

theorem test_decode_keypad_timers :
    decodeWord 0b1110101010011110 = .ok (.skpVx 0xA) ∧ decodeWord 0b1110101010100001 = .ok (.sknpVx 0xA) ∧
    decodeWord 0b1111000100000111 = .ok (.ldVxDt 0x1) ∧ decodeWord 0b1111001100001010 = .ok (.ldVxK 0x3) ∧
    decodeWord 0b1111000000010101 = .ok (.ldDtVx 0x0) ∧ decodeWord 0b1111010000011000 = .ok (.ldStVx 0x4) :=
  ⟨rfl, rfl, rfl, rfl, rfl, rfl⟩

/-- The near misses of U1 to U10 of the test vectors. -/
theorem test_decode_rejects :
    decodeOp 0x0000 = none ∧ decodeOp 0x01E0 = none ∧ decodeOp 0x0FEE = none ∧ decodeOp 0x00E1 = none ∧
    decodeOp 0x512F = none ∧ decodeOp 0x9001 = none ∧ decodeOp 0x8008 = none ∧ decodeOp 0x800F = none ∧
    decodeOp 0xE09F = none ∧ decodeOp 0xE0A0 = none ∧ decodeOp 0xF008 = none ∧ decodeOp 0xF085 = none :=
  ⟨rfl, rfl, rfl, rfl, rfl, rfl, rfl, rfl, rfl, rfl, rfl, rfl⟩

/-- A byte stream is read two bytes at a time, the first one high (R59, R70); one byte is too few. -/
theorem test_decode_stream :
    decode [0xA2, 0x1E, 0x60] = .ok (.ldINnn 0x21E, [0x60]) ∧ decode [0xA2] = .error .truncated ∧
    decodeTableWord 16 0xA21E = some (.ldINnn 0x21E) := ⟨rfl, rfl, rfl⟩

/-! ### Well-formedness -/

theorem test_rom_too_long : Event.wellFormed (.reset (List.replicate 3585 0) Config.defaultFont) = false := by
  rw [Event.wellFormed, romFits, List.length_replicate]; rfl
theorem test_rom_longest : romFits (List.replicate 3584 0) = true := by rw [romFits, List.length_replicate]; rfl
theorem test_font_too_short : Event.wellFormed (.reset [] (List.replicate 79 0)) = false := by decide
theorem test_font_too_long : Event.wellFormed (.reset [] (List.replicate 81 0)) = false := by decide
theorem test_font_default : Event.wellFormed (.reset [] Config.defaultFont) = true := by decide
theorem test_wellFormed_unused_field : (Instr.shrVx 0xF 0xF).wellFormed = true := by decide

/-! ### Control flow -/

/-- T1. -/
theorem test_jp : ends (prog 0x1ABC []) (fun t => t.pc == 0xABC && t.sp == 0) = true := by decide
/-- T22: the sum is reduced modulo 4096. -/
theorem test_jpV0_wraps : ends (prog 0xBFFF [(0, 0xFF)]) (fun t => t.pc == 0x0FE) = true := by decide
/-- T23: V2 is not used. -/
theorem test_jpV0_is_V0 : ends (prog 0xB234 [(2, 0x99)]) (fun t => t.pc == 0x234) = true := by decide
/-- T5. -/
theorem test_call_last_slot :
    ends { prog 0x2ABC [] with sp := 15 } (fun t => t.pc == 0xABC && t.sp == 16 && t.stk[15] == 0x202) = true := by decide
/-- T6. -/
theorem test_call_overflow :
    ends { prog 0x2ABC [] with sp := 16 } (fun t => t.halt == some ⟨.stackOverflow, 0x200, some 0x2ABC⟩) = true := by decide
/-- T7, at 0x200. -/
theorem test_ret :
    ends { prog 0x00EE [] with sp := 2, stk := (Vector.replicate 16 0).set 1 0x30A } (fun t => t.pc == 0x30A && t.sp == 1) = true := by
  decide
/-- T9. -/
theorem test_ret_underflow :
    ends (prog 0x00EE []) (fun t => t.halt == some ⟨.stackUnderflow, 0x200, some 0x00EE⟩) = true := by decide
/-- T12, T11. -/
theorem test_se_immediate :
    ends (prog 0x3F01 [(0xF, 1)]) (fun t => t.pc == 0x204) = true ∧ ends (prog 0x3000 [(0, 1)]) (fun t => t.pc == 0x202) = true := by
  decide
/-- T13, T14, at 0x200. -/
theorem test_sne_immediate :
    ends (prog 0x4311 [(3, 0x10)]) (fun t => t.pc == 0x204) = true ∧
    ends (prog 0x4310 [(3, 0x10)]) (fun t => t.pc == 0x202) = true := by decide
/-- T17, T16. -/
theorem test_se_register :
    ends (prog 0x5330 [(3, 9)]) (fun t => t.pc == 0x204) = true ∧
    ends (prog 0x5120 [(1, 7), (2, 8)]) (fun t => t.pc == 0x202) = true := by decide
/-- T18, T20. -/
theorem test_sne_register :
    ends (prog 0x9120 [(1, 7), (2, 8)]) (fun t => t.pc == 0x204) = true ∧
    ends (prog 0x9330 [(3, 9)]) (fun t => t.pc == 0x202) = true := by decide
/-- T26: a taken skip at the top of memory wraps. -/
theorem test_skip_wraps :
    ends ({ State.reset with pc := 0xFFE }.withFetchWord 16 0x3000) (fun t => t.pc == 0x002) = true := by decide

/-! ### Loads, arithmetic, logic, shifts, random -/

/-- A2. -/
theorem test_ld_immediate : ends (prog 0x6F07 []) (fun t => t.reg 0xF == 7 && t.pc == 0x202) = true := by decide
/-- X16. -/
theorem test_add_immediate_no_flag :
    ends (prog 0x71FF [(1, 1), (0xF, 1)]) (fun t => t.reg 1 == 0 && t.reg 0xF == 1) = true := by decide
/-- A7. -/
theorem test_ld_register : ends (prog 0x8120 [(1, 0x11), (2, 0x7A)]) (fun t => t.reg 1 == 0x7A && t.reg 2 == 0x7A) = true := by
  decide
/-- A13. -/
theorem test_or_into_vf : ends (prog 0x8F11 [(1, 0x80), (0xF, 1)]) (fun t => t.reg 0xF == 0x81) = true := by decide
/-- A14. -/
theorem test_and : ends (prog 0x8012 [(0, 0xF3), (1, 0x3C), (0xF, 7)]) (fun t => t.reg 0 == 0x30 && t.reg 0xF == 7) = true := by
  decide
/-- A17. -/
theorem test_xor : ends (prog 0x8013 [(0, 0xFF), (1, 0x0F), (0xF, 7)]) (fun t => t.reg 0 == 0xF0 && t.reg 0xF == 7) = true := by
  decide
/-- A28: y = F adds the old VF. -/
theorem test_add_old_vf : ends (prog 0x80F4 [(0, 1), (0xF, 7)]) (fun t => t.reg 0 == 8 && t.reg 0xF == 0) = true := by decide
/-- A26: the carry overwrites the sum. -/
theorem test_add_flag_last : ends (prog 0x8F14 [(1, 2), (0xF, 0xFF)]) (fun t => t.reg 0xF == 1) = true := by decide
/-- A30: equality is no borrow. -/
theorem test_sub_equal : ends (prog 0x8015 [(0, 5), (1, 5)]) (fun t => t.reg 0 == 0 && t.reg 0xF == 1) = true := by decide
/-- A33. -/
theorem test_sub_borrow : ends (prog 0x8015 [(0, 3), (1, 5)]) (fun t => t.reg 0 == 0xFE && t.reg 0xF == 0) = true := by decide
/-- A47. -/
theorem test_subn_borrow : ends (prog 0x8017 [(0, 5), (1, 3)]) (fun t => t.reg 0 == 0xFE && t.reg 0xF == 0) = true := by decide
/-- A52: y = F, the old VF is the minuend. -/
theorem test_subn_old_vf : ends (prog 0x80F7 [(0, 1)]) (fun t => t.reg 0 == 0xFF && t.reg 0xF == 0) = true := by decide
/-- A43: y is ignored. -/
theorem test_shr_ignores_y :
    ends (prog 0x8016 [(0, 4), (1, 0xFF)]) (fun t => t.reg 0 == 2 && t.reg 1 == 0xFF && t.reg 0xF == 0) = true := by decide
/-- A44: x = F keeps the bit shifted out. -/
theorem test_shr_vf : ends (prog 0x8F06 [(0xF, 3)]) (fun t => t.reg 0xF == 1) = true := by decide
/-- A54. -/
theorem test_shl : ends (prog 0x800E [(0, 0x81)]) (fun t => t.reg 0 == 2 && t.reg 0xF == 1) = true := by decide
/-- A59. -/
theorem test_shl_vf : ends (prog 0x8F0E [(0xF, 0x7F)]) (fun t => t.reg 0xF == 0) = true := by decide
/-- A60. -/
theorem test_rnd_masked : ends (progIn 0xC30F [] 0 0xA7) (fun t => t.reg 3 == 7) = true := by decide

/-! ### Address register and memory -/

/-- M2. -/
theorem test_ld_i : ends (progMem 0xAFFF [] 0x1234 0 []) (fun t => t.i == 0x0FFF) = true := by decide
/-- X6, M4. -/
theorem test_add_i :
    ends (progMem 0xF01E [(0, 5)] 0x0FFE 0 []) (fun t => t.i == 0x1003 && t.reg 0xF == 0) = true ∧
    ends (progMem 0xF01E [(0, 2)] 0xFFFF 0 []) (fun t => t.i == 0x0001) = true := by decide
/-- M10: the low digit alone selects the glyph. -/
theorem test_ld_f : ends (prog 0xF029 [(0, 0x1A)]) (fun t => t.i == 0x0082) = true := by decide
/-- M15: the highest legal I. -/
theorem test_bcd_at_top :
    ends (progMem 0xF033 [(0, 0xFF)] 0x0FFD 0 [])
      (fun t => t.byteAt 0xFFD == 2 && t.byteAt 0xFFE == 5 && t.byteAt 0xFFF == 5 && t.i == 0x0FFD) = true := by decide
/-- M16. -/
theorem test_bcd_fault :
    ends (progMem 0xF033 [(0, 0xFF)] 0x0FFE 0 []) (fun t => t.halt == some ⟨.writeBounds, 0x200, some 0xF033⟩) = true := by decide
/-- M21. -/
theorem test_store_block :
    ends (progMem 0xF255 [(0, 2), (1, 3), (2, 4), (3, 9)] 0x0303 0x306 [0xEE])
      (fun t => t.byteAt 0x303 == 2 && t.byteAt 0x305 == 4 && t.byteAt 0x306 == 0xEE && t.i == 0x0303) = true := by decide
/-- M19. -/
theorem test_store_fault :
    ends (progMem 0xF155 [(0, 0xAB)] 0x0FFF 0 []) (fun t => t.halt == some ⟨.writeBounds, 0x200, some 0xF155⟩) = true := by decide
/-- M22. -/
theorem test_load_block :
    ends (progMem 0xF265 [(3, 0x77)] 0x0300 0x300 [2, 3, 4, 5])
      (fun t => t.reg 0 == 2 && t.reg 2 == 4 && t.reg 3 == 0x77 && t.i == 0x0300) = true := by decide
/-- M26. -/
theorem test_load_fault :
    ends (progMem 0xF065 [] 0xFFFF 0 []) (fun t => t.halt == some ⟨.readBounds, 0x200, some 0xF065⟩) = true := by decide

/-! ### Display -/

/-- G1. -/
theorem test_cls :
    ends ((regsOn (State.reset.setFb (xorPlot fbClear 5 5 true).1) [(0xF, 1)]).withFetchWord 16 0x00E0)
      (fun t => t.fb == fbClear && t.reg 0xF == 1) = true := by decide
/-- X1: clipped at the right edge. -/
theorem test_draw_clipped :
    ends (progMem 0xD011 [(0, 62), (1, 31)] 0x300 0x300 [0xFF])
      (fun t => pixel t.fb 62 31 && pixel t.fb 63 31 && !pixel t.fb 0 31 && !pixel t.fb 0 0 && t.reg 0xF == 0) = true := by decide
/-- G13: the coordinates are read before VF is cleared. -/
theorem test_draw_coordinates_first :
    ends (progMem 0xDFF1 [(0xF, 3)] 0x300 0x300 [0x80]) (fun t => pixel t.fb 3 3 && !pixel t.fb 0 0 && t.reg 0xF == 0) = true := by
  decide

/-! ### Keypad and timers -/

/-- K5, K4: key 0 is a key; Vx is not masked. -/
theorem test_skp :
    ends (progIn 0xE09E [] (held [0]) 0) (fun t => t.pc == 0x204) = true ∧
    ends (progIn 0xE09E [(0, 0x15)] (held [5]) 0) (fun t => t.pc == 0x202) = true := by decide
/-- K7, K8. -/
theorem test_sknp :
    ends (progIn 0xE0A1 [(0, 5)] 0 0) (fun t => t.pc == 0x204) = true ∧
    ends (progIn 0xE0A1 [(0, 5)] (held [5]) 0) (fun t => t.pc == 0x202) = true := by decide
/-- K11, K12. -/
theorem test_ld_key :
    ends (progIn 0xF30A [] (held [0xB]) 0) (fun t => t.reg 3 == 0xB && t.wait == .run && t.pc == 0x202) = true ∧
    ends (progIn 0xF30A [] 0 0) (fun t => t.wait == .waitKey 3 && t.reg 3 == 0 && t.pc == 0x202 && t.waiting) = true := by decide
/-- K19's third Step: a held key ends the wait, nothing is fetched. -/
theorem test_wait_ends :
    event (.step (held [0xF]) 0) { State.reset with wait := .waitKey 2 }
      (fun t => t.reg 2 == 0xF && t.wait == .run && t.pc == 0x200) = true := by decide
/-- The priority encoder's examples in the test vectors. -/
theorem test_key_priority :
    chooseKey (held []) = none ∧ chooseKey (held [1, 2]) = some 1 ∧ chooseKey (held [0, 0xF]) = some 0 ∧
    chooseKey (held [0xC, 4]) = some 0xC ∧ chooseKey (held [0xA, 0, 0xB]) = some 0xA ∧ chooseKey (held [4, 3]) = some 3 := by
  decide
/-- K13. -/
theorem test_ld_from_dt : ends ({ State.reset with dt := 0x2A }.withFetchWord 16 0xF107) (fun t => t.reg 1 == 0x2A && t.dt == 0x2A) = true := by
  decide
/-- K14. -/
theorem test_ld_dt : ends (prog 0xF015 [(0, 3)]) (fun t => t.dt == 3 && t.st == 0) = true := by decide
/-- K16. -/
theorem test_ld_st : ends (prog 0xF418 [(4, 0x10)]) (fun t => t.st == 0x10 && t.sound) = true := by decide
/-- K18's first TimerTick. -/
theorem test_timer_tick :
    event .timerTick { State.reset with dt := 2, st := 1 } (fun t => t.dt == 1 && t.st == 0 && !t.sound) = true := by decide

/-! ### Events and faults -/

/-- U1, in memory that nothing has written. -/
theorem test_unknown_encoding :
    event (.step 0 0) State.reset (fun t => t.pc == 0x202 && t.env.diag == [⟨0x200, 0x0000⟩] && t.halt == none) = true := by decide
/-- T28. -/
theorem test_fetch_fault :
    event (.step 0 0) { State.reset with pc := 0xFFF } (fun t => t.halt == some ⟨.fetchBounds, 0xFFF, none⟩) = true := by decide
/-- H1: a halted core accepts a Reset. -/
theorem test_reset_of_halted :
    event (.reset [0x12, 0x34] Config.defaultFont) { State.reset with halt := some ⟨.stackUnderflow, 0x200, some 0x00EE⟩ }
      (fun t => t.halt == none && t.pc == 0x200 && t.byteAt 0x200 == 0x12 && t.byteAt 0x201 == 0x34 && t.byteAt 0x202 == 0) = true := by
  decide
/-- R182's codes. -/
theorem test_fault_codes :
    FatalKind.fetchBounds.code = 1 ∧ FatalKind.readBounds.code = 2 ∧ FatalKind.writeBounds.code = 3 ∧
    FatalKind.stackOverflow.code = 4 ∧ FatalKind.stackUnderflow.code = 5 := by decide

/-! ### Witnesses: the hypotheses of the statements can be met -/

theorem witness_DecodeOfEncodeIsInstruction : (Instr.drwVxVyN 0xF 0xF 0xF).wellFormed = true := rfl
theorem witness_EncodeOfDecodeIsWord : decodeWord 0x8FF6 = .ok (.shrVx 0xF 0xF) := rfl

/-- The word JP 0x123 in the last two bytes of memory. -/
def topJump : State := { (State.reset.setMem (Memory.writeBytes [] 0xFFE [0x11, 0x23])) with pc := 0xFFE }

theorem witness_StepRunsDecodedInstruction :
    topJump.halt = none ∧ topJump.wait = .run ∧ topJump.pc.toNat = 4094 ∧ (Instr.jpNnn 0x123).wellFormed = true ∧
    decode [topJump.byteAt topJump.pc.toNat, topJump.byteAt (topJump.pc.toNat + 1)] = .ok (.jpNnn 0x123, []) ∧
    topJump.env.script = [] ∧ (topJump.setScript [.step 1 2]).env.script = [.step 1 2] := by decide

theorem witness_UnknownEncodingOnlyEmitsDiag :
    (State.reset.setScript [.step 0 0]).halt = none ∧ (State.reset.setScript [.step 0 0]).wait = .run ∧
    (State.reset.setScript [.step 0 0]).pc.toNat ≤ 4094 ∧ (State.reset.setScript [.step 0 0]).env.script = [.step 0 0] ∧
    wordOfBytes (State.reset.byteAt 0x200) (State.reset.byteAt 0x201) = 0 ∧
    ∀ row ∈ opcodeTable, row.accepts 0 = false := by decide

/-- A reset state about to fetch at 0xFFF. -/
def atTop : State := { State.reset.setScript [.step 0 0] with pc := 0xFFF }
theorem witness_FetchAtTopLatchesFetchBounds :
    atTop.halt = none ∧ atTop.wait = .run ∧ atTop.pc = 0xFFF ∧ atTop.env.script = [.step 0 0] := by decide

/-- A halted core. -/
def haltedCore : State := { State.reset with halt := some ⟨.stackUnderflow, 0x200, some 0x00EE⟩ }
theorem witness_HaltedCoreAcceptsOnlyReset :
    haltedCore.halt = some ⟨.stackUnderflow, 0x200, some 0x00EE⟩ ∧ haltedCore.env.script = [] ∧
    (haltedCore.setScript [.step 0 0]).halt ≠ none ∧ (haltedCore.setScript [.timerTick]).env.script = [.timerTick] ∧
    (haltedCore.setScript [.reset [] Config.defaultFont]).env.script = [.reset [] Config.defaultFont] ∧
    ([] : List Byte).length ≤ 3584 ∧ Config.defaultFont.length = 80 := by decide

theorem witness_ResetBuildsStateFromNothing :
    (haltedCore.setScript [.reset (List.replicate 3584 1) Config.defaultFont]).env.script =
      [.reset (List.replicate 3584 1) Config.defaultFont] ∧
    (List.replicate 3584 (1 : Byte)).length ≤ 3584 ∧ Config.defaultFont.length = 80 :=
  ⟨rfl, by rw [List.length_replicate], rfl⟩

theorem witness_ResetOutsidePreconditionIsRefused :
    (3584 < (List.replicate 3585 (1 : Byte)).length ∨ Config.defaultFont.length ≠ 80) ∧
    (3584 < ([] : List Byte).length ∨ (List.replicate 79 (0 : Byte)).length ≠ 80) :=
  ⟨.inl (by rw [List.length_replicate]; omega), .inr (by decide)⟩

theorem witness_TimerTickDecrementsBothTimers :
    (State.reset.setScript [.timerTick]).halt = none ∧ (State.reset.setScript [.timerTick]).env.script = [.timerTick] := by decide

/-- The same in the wait state. -/
theorem witness_TimerTickDecrementsBothTimers_waiting :
    { State.reset.setScript [.timerTick] with wait := .waitKey 2 }.halt = none ∧
    { State.reset.setScript [.timerTick] with wait := .waitKey 2 }.env.script = [.timerTick] := by decide

/-- A core that waits for a key into VF and is offered a Step with the given keys held. -/
def waiter (ks : List Nat) : State := { State.reset.setScript [.step (held ks) 0] with wait := .waitKey 0xF }
theorem witness_WaitStepSamplesKeypadOnce :
    (waiter [7]).halt = none ∧ (waiter [7]).wait = .waitKey 0xF ∧ (waiter [7]).env.script = [.step (held [7]) 0] ∧
    chooseKey (held [7]) = some 7 ∧
    (waiter []).halt = none ∧ (waiter []).wait = .waitKey 0xF ∧ (waiter []).env.script = [.step (held []) 0] ∧
    chooseKey (held []) = none := by decide

theorem witness_UnscriptedStepIsTicksThenStep : State.reset.env.script = [] := rfl

theorem witness_CallPushesPcAndJumps : { State.reset with sp := 15 }.sp.val < 16 ∧ State.reset.sp.val < 16 := by decide
theorem witness_RetPopsIntoPc : 0 < { State.reset with sp := 1 }.sp.val ∧ 0 < { State.reset with sp := 16 }.sp.val := by decide
theorem witness_StackFaultsLatchHalt : { State.reset with sp := 16 }.sp.val = 16 ∧ State.reset.sp.val = 0 := by decide

theorem witness_RetAfterCallReturnsBehindIt :
    { State.reset with sp := 15 }.sp.val < 16 ∧
    ∃ t, exec (.callNnn 0x300) { State.reset with sp := 15 } = .next t ∧ (t.setReg 1 9).sp = t.sp ∧ (t.setReg 1 9).stk = t.stk :=
  ⟨by decide, _, rfl, rfl, rfl⟩

theorem witness_KeypadSkipsMovePc :
    (∃ k, chooseKey (held [5]) = some k ∧ k.toNat = ((regsOn State.reset [(0, 5)]).reg 0).toNat) ∧
    ¬ ∃ k, chooseKey (held []) = some k ∧ k.toNat = ((regsOn State.reset [(0, 5)]).reg 0).toNat := by decide

/-- The clauses on `x ≠ vf` of the five flag-writing statements. -/
theorem witness_flag_statements : (0xE : Nibble) ≠ vf := by decide

theorem witness_BcdStoresThreeDigits : (State.reset.setI 4093).i.toNat ≤ 4093 := by decide

/-- Both ends of the stored range, for the store and the load. -/
theorem witness_StoreBlockStoresV0ToVx :
    (State.reset.setI 4080).i.toNat + (0xF : Nibble).toNat ≤ 4095 ∧ (0xF : Nibble).toNat ≤ (0xF : Nibble).toNat ∧
    (4079 < (State.reset.setI 4080).ea 0 ∨ (State.reset.setI 4080).ea ((0xF : Nibble).toNat + 1) ≤ 4079) := by decide
theorem witness_LoadBlockLoadsV0ToVx :
    (State.reset.setI 4095).i.toNat + (0 : Nibble).toNat ≤ 4095 ∧ (0 : Nibble).toNat ≤ (0 : Nibble).toNat ∧
    (0 : Nibble).toNat < (1 : Nibble).toNat := by decide

theorem witness_TransfersOutOfBoundsLatchHalt :
    4093 < (State.reset.setI 4094).i.toNat ∧ 4095 < (State.reset.setI 4081).i.toNat + (0xF : Nibble).toNat ∧
    ¬ InBounds (State.reset.setI 4096) (1 : Nibble).toNat := by
  refine ⟨by decide, by decide, ?_⟩
  unfold InBounds; decide

theorem witness_StoreThenLoadRestoresRegisters :
    (State.reset.setI 4080).i.toNat + (0xF : Nibble).toNat ≤ 4095 ∧
    ∃ t, exec (.ldMemIVx 0xF) (State.reset.setI 4080) = .next t ∧ (t.setReg 3 7).i = t.i ∧
      ∀ a, (t.setReg 3 7).byteAt a = t.byteAt a := ⟨by decide, _, rfl, rfl, fun _ => rfl⟩

theorem witness_BcdThenLoadReconstructsNumber :
    (State.reset.setI 4093).i.toNat ≤ 4093 ∧
    (∃ t, exec (.ldBVx 0) (State.reset.setI 4093) = .next t ∧ (t.setReg 3 7).i = t.i ∧ ∀ a, (t.setReg 3 7).byteAt a = t.byteAt a) ∧
    2 ≤ (2 : Nibble).toNat ∧ (State.reset.setI 4093).i.toNat + (2 : Nibble).toNat ≤ 4095 :=
  ⟨by decide, ⟨_, rfl, rfl, fun _ => rfl⟩, by decide, by decide⟩

/-- V0 and V1 hold the word JP 0x300 and I points at PC. -/
def selfModifier : State := ((regsOn State.reset [(0, 0x13), (1, 0x00)]).setI 0x200).setScript [.step 0 0]
theorem witness_StoredWordIsFetchedNext :
    1 ≤ (1 : Nibble).toNat ∧ selfModifier.i.toNat = selfModifier.pc.toNat ∧ selfModifier.i.toNat + (1 : Nibble).toNat ≤ 4095 ∧
    selfModifier.halt = none ∧ selfModifier.wait = .run ∧ selfModifier.env.script = [.step 0 0] ∧
    decodeWord (wordOfBytes (selfModifier.reg 0) (selfModifier.reg 1)) = .ok (.jpNnn 0x300) ∧
    ∃ t, exec (.ldMemIVx 1) selfModifier = .next t :=
  ⟨by decide, by decide, by decide, rfl, rfl, rfl, rfl, _, rfl⟩

/-- Glyph 0 over a screen with the pixel (0, 0) on, or off. -/
theorem witness_DrawXorsClippedSprite :
    InBounds (State.reset.setI 0xFFFF) (0 : Nibble).toNat ∧ InBounds (State.reset.setI 4081) (0xF : Nibble).toNat ∧
    InBounds (State.reset.setI 0x050) (5 : Nibble).toNat ∧
    (∃ px py, px < 64 ∧ py < 32 ∧ pixel ((State.reset.setI 0x050).setFb (xorPlot fbClear 0 0 true).1).fb px py = true ∧
      spriteBitAt ((State.reset.setI 0x050).setFb (xorPlot fbClear 0 0 true).1) 0 0 5 px py = true) ∧
    ¬ ∃ px py, px < 64 ∧ py < 32 ∧ pixel State.reset.fb px py = true ∧ spriteBitAt (State.reset.setI 0x050) 0 0 5 px py = true := by
  refine ⟨.inl rfl, .inr (by decide), .inr (by decide), ⟨0, 0, by decide, by decide, by decide, by decide⟩, ?_⟩
  rintro ⟨px, py, _, _, h, _⟩
  rw [show State.reset.fb = fbClear from rfl, pixel_fbClear] at h
  cases h

theorem witness_DrawTwiceRestoresScreen :
    InBounds (State.reset.setI 0x050) (5 : Nibble).toNat ∧ (0xE : Nibble) ≠ vf ∧
    ∃ t, exec (.drwVxVyN 0xE 0xE 5) (State.reset.setI 0x050) = .next t := ⟨.inr (by decide), by decide, _, rfl⟩

theorem witness_KeyLoadCompletesOrWaits :
    chooseKey (State.reset.latchInputs (held [3]) 0).env.keysHeld = some 3 ∧ chooseKey State.reset.env.keysHeld = none := by decide

theorem witness_OnlySixInstructionsCanHalt :
    State.reset.halt = none ∧ ∃ t, exec .ret State.reset = .next t ∧ t.halt ≠ none := ⟨rfl, _, rfl, by decide⟩

theorem witness_FlagWritersLeaveVfZeroOrOne :
    writesFlag (.shlVx 0xF 0) = true ∧ State.reset.halt = none ∧
    ∃ t, exec (.shlVx 0xF 0) State.reset = .next t ∧ t.halt = none := ⟨rfl, rfl, _, rfl, rfl⟩

theorem witness_EachPartHasItsOwnWriters :
    State.reset.halt = none ∧ ∃ t, exec (.ldMemIVx 0) State.reset = .next t ∧ t.halt = none := ⟨rfl, _, rfl, rfl⟩

/-- A draw that ends running, with rows read and drawn. -/
theorem witness_InputsReachOnlyTheirReaders :
    State.reset.halt = none ∧ readsKey (.drwVxVyN 0 1 5) = false ∧ (∀ x kk, Instr.drwVxVyN 0 1 5 ≠ .rndVxKk x kk) ∧
    ∃ t, exec (.drwVxVyN 0 1 5) (State.reset.setI 0x050) = .next t ∧ t.halt = none :=
  ⟨rfl, rfl, (fun _ _ h => by cases h), _, rfl, rfl⟩

/-- A store that ends halted. -/
theorem witness_InputsReachOnlyTheirReaders_halting :
    (State.reset.setI 0xFFF).halt = none ∧ readsKey (.ldMemIVx 1) = false ∧ (∀ x kk, Instr.ldMemIVx 1 ≠ .rndVxKk x kk) ∧
    ∃ t, exec (.ldMemIVx 1) (State.reset.setI 0xFFF) = .next t ∧ t.halt = some ⟨.writeBounds, 0x1FE, some 0xF155⟩ :=
  ⟨rfl, rfl, (fun _ _ h => by cases h), _, rfl, rfl⟩

theorem witness_StepKeepsInvariant :
    CanonicalAndLegal topJump ∧ ∃ t, step (topJump.setScript [.step 0 0]) = .next t :=
  ⟨⟨by decide, fun _ h => by cases h⟩, _, rfl⟩

end Sys2Proof.Tests
end

section
/-! What one instruction can do: it leaves everything but its own registers and parts as it was, or it latches a fatal
fault. The statements about the state (spec/10_state.md) follow from that. -/

namespace Sys2Proof.Machine

/-! ### What an instruction may write -/

/-- The general registers an instruction may write, VF as a flag included (R22, R120, R144). -/
def regsWritten : Instr → List Nibble
  | .ldVxKk x _ | .addVxKk x _ | .ldVxVy x _ | .orVxVy x _ | .andVxVy x _ | .xorVxVy x _ | .rndVxKk x _ | .ldVxDt x
  | .ldVxK x => [x]
  | .addVxVy x _ | .subVxVy x _ | .shrVx x _ | .subnVxVy x _ | .shlVx x _ => [x, vf]
  | .drwVxVyN _ _ _ => [vf]
  | .ldVxMemI x => (List.range (x.toNat + 1)).map (BitVec.ofNat 4)
  | .cls | .ret | .jpNnn _ | .callNnn _ | .seVxKk _ _ | .sneVxKk _ _ | .seVxVy _ _ | .sneVxVy _ _ | .ldINnn _
  | .jpV0Nnn _ | .skpVx _ | .sknpVx _ | .ldDtVx _ | .ldStVx _ | .addIVx _ | .ldFVx _ | .ldBVx _ | .ldMemIVx _ => []

/-- The other parts of the state an instruction may write (R24, R27, R32, R34, R37, R51, R109). -/
def partsWritten : Instr → List Part
  | .jpNnn _ | .jpV0Nnn _ | .seVxKk _ _ | .sneVxKk _ _ | .seVxVy _ _ | .sneVxVy _ _ | .skpVx _ | .sknpVx _ => [.pc]
  | .callNnn _ | .ret => [.pc, .stack]
  | .ldINnn _ | .addIVx _ | .ldFVx _ => [.i]
  | .ldDtVx _ => [.dt]
  | .ldStVx _ => [.st]
  | .cls | .drwVxVyN _ _ _ => [.fb]
  | .ldBVx _ | .ldMemIVx _ => [.mem]
  | .ldVxK _ => [.wait]
  | .ldVxKk _ _ | .addVxKk _ _ | .ldVxVy _ _ | .orVxVy _ _ | .andVxVy _ _ | .xorVxVy _ _ | .addVxVy _ _ | .subVxVy _ _
  | .shrVx _ _ | .subnVxVy _ _ | .shlVx _ _ | .rndVxKk _ _ | .ldVxDt _ | .ldVxMemI _ => []

/-- The two ends of an instruction: its frame holds, or the core has latched the fatal fault it can raise (R182, R184). -/
def KeepsOrHalts (i : Instr) (s t : State) : Prop :=
  Keeps (regsWritten i) (partsWritten i) s t ∨
    ∃ k, faultOf i = some k ∧ t = latchHalt ⟨k, s.pc - 2, some (encode i)⟩ s

/-- An instruction that ends running has kept its frame. -/
theorem KeepsOrHalts.keeps {i : Instr} {s t : State} (h : KeepsOrHalts i s t) (ht : t.halt = none) :
    Keeps (regsWritten i) (partsWritten i) s t := by
  rcases h with h | ⟨k, _, rfl⟩
  · exact h
  · simp at ht

/-! ### The shared operations -/

theorem keeps_push {a : Addr} {s t : State} (h : push a s = .ok t) : Keeps [] [.stack] s t := by
  rcases push_cases h with ⟨_, ht⟩ | ⟨_, ht⟩
  · cases ht
    exact { Keeps.refl [] [.stack] s with stack := fun hn => absurd (List.mem_singleton.2 rfl) hn }
  · cases ht

theorem keeps_pop {s : State} {p : Addr × State} (h : pop s = .ok p) : Keeps [] [.stack] s p.2 := by
  by_cases hs : s.sp.val = 0
  · rw [pop_error hs] at h
    cases h
  · rw [pop_ok hs] at h
    cases h
    exact { Keeps.refl [] [.stack] s with stack := fun hn => absurd (List.mem_singleton.2 rfl) hn }

theorem push_error_kind {a : Addr} {s : State} {k : FatalKind} (h : push a s = .error k) : k = .stackOverflow := by
  rcases push_cases h with ⟨_, ht⟩ | ⟨_, ht⟩
  · cases ht
  · cases ht
    rfl

theorem pop_error_kind {s : State} {k : FatalKind} (h : pop s = .error k) : k = .stackUnderflow := by
  by_cases hs : s.sp.val = 0
  · rw [pop_error hs] at h
    cases h
    rfl
  · rw [pop_ok hs] at h
    cases h

theorem readBlock_length {m : Memory} {a n : Nat} {bs : List Byte} (h : readBlock m a n = .ok bs) : bs.length = n := by
  by_cases hb : n = 0 ∨ a + n ≤ 4096
  · rw [readBlock_ok hb] at h
    cases h
    simp
  · rw [readBlock_error (by omega)] at h
    cases h

/-- Loading `n` bytes from V0 on writes no register but the first `n`. -/
theorem keeps_loadRegs (s : State) (bs : List Byte) :
    Keeps ((List.range bs.length).map (BitVec.ofNat 4)) [] s (s.setV (loadRegs s.v 0 bs)) := by
  refine { Keeps.refl (List.map (BitVec.ofNat 4) (List.range bs.length)) [] s with reg := fun r hr => ?_ }
  have hlen : ¬ (0 ≤ r.toNat ∧ r.toNat < 0 + bs.length) := fun hlt =>
    hr (List.mem_map.2 ⟨r.toNat, List.mem_range.2 (by omega), by simp⟩)
  exact (getElem_loadRegs s.v 0 bs r.toNat r.isLt).trans (if_neg hlen)

/-- A faulting operation followed by an update that keeps the instruction's frame. -/
theorem endInstr_map_keepsOrHalts {α : Type} {i : Instr} {s : State} {kind : FatalKind} {r : Except FatalKind α}
    {f : α → State} (hi : faultOf i = some kind) (herr : ∀ k, r = .error k → k = kind)
    (hok : ∀ a, r = .ok a → Keeps (regsWritten i) (partsWritten i) s (f a)) :
    KeepsOrHalts i s (endInstr i s (r.map f)) := by
  cases r with
  | ok a => exact .inl (hok a rfl)
  | error k => exact .inr ⟨k, herr k rfl ▸ hi, rfl⟩

/-- An instruction that ends running had an operation that answered, and ends in the update of that answer. -/
theorem endInstr_map_of_running {α : Type} {i : Instr} {s : State} {r : Except FatalKind α} {f : α → State}
    (h : (endInstr i s (r.map f)).halt = none) : ∃ a, r = .ok a ∧ endInstr i s (r.map f) = f a := by
  cases r with
  | ok a => exact ⟨a, rfl, rfl⟩
  | error k => cases h

/-! ### The instructions -/

theorem ret_keepsOrHalts (s : State) : ∃ t, exec .ret s = .next t ∧ KeepsOrHalts .ret s t :=
  ⟨_, rfl, endInstr_map_keepsOrHalts rfl (fun _ => pop_error_kind) fun p hp =>
    ((keeps_pop hp).mono (by simp) (by simp [partsWritten])).trans
      ((keeps_setPc p.2 p.1).mono (by simp) (by simp [partsWritten]))⟩

theorem callNnn_keepsOrHalts (nnn : Addr) (s : State) :
    ∃ t, exec (.callNnn nnn) s = .next t ∧ KeepsOrHalts (.callNnn nnn) s t :=
  ⟨_, rfl, endInstr_map_keepsOrHalts rfl (fun _ => push_error_kind) fun u hu =>
    ((keeps_push hu).mono (by simp) (by simp [partsWritten])).trans
      ((keeps_setPc u nnn).mono (by simp) (by simp [partsWritten]))⟩

theorem drwVxVyN_keepsOrHalts (x y n : Nibble) (s : State) :
    ∃ t, exec (.drwVxVyN x y n) s = .next t ∧ KeepsOrHalts (.drwVxVyN x y n) s t :=
  ⟨_, rfl, endInstr_map_keepsOrHalts rfl (fun _ => readBlock_error_kind) fun _ _ =>
    ((keeps_setFb s _).mono (by simp) (by simp [partsWritten])).trans
      ((keeps_setReg _ vf _).mono (by simp [regsWritten]) (by simp))⟩

theorem ldVxMemI_keepsOrHalts (x : Nibble) (s : State) :
    ∃ t, exec (.ldVxMemI x) s = .next t ∧ KeepsOrHalts (.ldVxMemI x) s t :=
  ⟨_, rfl, endInstr_map_keepsOrHalts rfl (fun _ => readBlock_error_kind) fun bs hbs => by
    have hk := keeps_loadRegs s bs
    rwa [readBlock_length hbs] at hk⟩

theorem ldVxK_keepsOrHalts (x : Nibble) (s : State) :
    ∃ t, exec (.ldVxK x) s = .next t ∧ KeepsOrHalts (.ldVxK x) s t := by
  refine ⟨_, rfl, .inl ?_⟩
  cases s.keySample with
  | some k => exact (keeps_setReg s x (keyByte k)).mono (fun _ h => h) (by simp)
  | none => exact (keeps_setWait s (.waitKey x)).mono (by simp) (fun _ h => h)

/-- Every instruction, from every state, ends in a next state: its frame holds, or its fatal fault is latched with the
fetch address and the instruction's word (R181 to R184). -/
theorem exec_keepsOrHalts (i : Instr) (s : State) : ∃ t, exec i s = .next t ∧ KeepsOrHalts i s t := by
  cases i with
  | ret => exact ret_keepsOrHalts s
  | callNnn nnn => exact callNnn_keepsOrHalts nnn s
  | drwVxVyN x y n => exact drwVxVyN_keepsOrHalts x y n s
  | ldVxMemI x => exact ldVxMemI_keepsOrHalts x s
  | ldVxK x => exact ldVxK_keepsOrHalts x s
  | ldBVx | ldMemIVx =>
    exact ⟨_, rfl, endInstr_map_keepsOrHalts rfl (fun _ => writeBlock_error_kind) fun m _ => keeps_setMem s m⟩
  | cls => exact ⟨_, rfl, .inl (keeps_setFb s _)⟩
  | jpNnn | jpV0Nnn => exact ⟨_, rfl, .inl (keeps_setPc s _)⟩
  | seVxKk | sneVxKk | seVxVy | sneVxVy | skpVx | sknpVx => exact ⟨_, rfl, .inl (keeps_skipIf s _)⟩
  | ldVxKk | addVxKk | ldVxVy | orVxVy | andVxVy | xorVxVy | rndVxKk | ldVxDt =>
    exact ⟨_, rfl, .inl (keeps_setReg s _ _)⟩
  | addVxVy | subVxVy | shrVx | subnVxVy | shlVx => exact ⟨_, rfl, .inl (keeps_setRegFlag s _ _ _)⟩
  | ldINnn | addIVx | ldFVx => exact ⟨_, rfl, .inl (keeps_setI s _)⟩
  | ldDtVx => exact ⟨_, rfl, .inl (keeps_setDt s _)⟩
  | ldStVx => exact ⟨_, rfl, .inl (keeps_setSt s _)⟩

/-- An instruction that ends running changes nothing but its own registers and parts. -/
theorem exec_keeps {i : Instr} {s t : State} (h : exec i s = .next t) (ht : t.halt = none) :
    Keeps (regsWritten i) (partsWritten i) s t := by
  obtain ⟨u, hu, hk⟩ := exec_keepsOrHalts i s
  cases hu.symm.trans h
  exact hk.keeps ht

/-! ### The writers of each part -/

section
variable {i : Instr}

theorem i_mem_partsWritten_iff :
    Part.i ∈ partsWritten i ↔ (∃ nnn, i = .ldINnn nnn) ∨ (∃ x, i = .addIVx x) ∨ ∃ x, i = .ldFVx x := by
  cases i <;> simp [partsWritten]

theorem stack_mem_partsWritten_iff : Part.stack ∈ partsWritten i ↔ (∃ nnn, i = .callNnn nnn) ∨ i = .ret := by
  cases i <;> simp [partsWritten]

theorem dt_mem_partsWritten_iff : Part.dt ∈ partsWritten i ↔ ∃ x, i = .ldDtVx x := by
  cases i <;> simp [partsWritten]

theorem st_mem_partsWritten_iff : Part.st ∈ partsWritten i ↔ ∃ x, i = .ldStVx x := by
  cases i <;> simp [partsWritten]

theorem fb_mem_partsWritten_iff : Part.fb ∈ partsWritten i ↔ i = .cls ∨ ∃ x y n, i = .drwVxVyN x y n := by
  cases i <;> simp [partsWritten]

theorem mem_mem_partsWritten_iff : Part.mem ∈ partsWritten i ↔ (∃ x, i = .ldBVx x) ∨ ∃ x, i = .ldMemIVx x := by
  cases i <;> simp [partsWritten]

theorem wait_mem_partsWritten_iff : Part.wait ∈ partsWritten i ↔ ∃ x, i = .ldVxK x := by
  cases i <;> simp [partsWritten]

/-- The six skips (R104 to R107, R160, R161). -/
def IsSkip (i : Instr) : Prop :=
  (∃ x kk, i = .seVxKk x kk) ∨ (∃ x kk, i = .sneVxKk x kk) ∨ (∃ x y, i = .seVxVy x y) ∨
    (∃ x y, i = .sneVxVy x y) ∨ (∃ x, i = .skpVx x) ∨ ∃ x, i = .sknpVx x

theorem pc_mem_partsWritten_iff :
    Part.pc ∈ partsWritten i ↔
      (∃ nnn, i = .jpNnn nnn) ∨ (∃ nnn, i = .callNnn nnn) ∨ i = .ret ∨ (∃ nnn, i = .jpV0Nnn nnn) ∨ IsSkip i := by
  cases i <;> simp [partsWritten, IsSkip]

/-- A skip does nothing but `Skip()`, or nothing at all (R100). -/
theorem exec_of_isSkip (hi : IsSkip i) (s : State) : ∃ c, exec i s = .next (s.skipIf c) := by
  rcases hi with ⟨_, _, rfl⟩ | ⟨_, _, rfl⟩ | ⟨_, _, rfl⟩ | ⟨_, _, rfl⟩ | ⟨_, rfl⟩ | ⟨_, rfl⟩ <;> exact ⟨_, rfl⟩

/-- A skip leaves PC, or moves it by 2 (R100; D2, log 5). -/
theorem pc_of_isSkip (hi : IsSkip i) {s t : State} (h : exec i s = .next t) : t.pc = s.pc ∨ t.pc = s.pc + 2 := by
  obtain ⟨c, hc⟩ := exec_of_isSkip hi s
  cases hc.symm.trans h
  cases c
  · exact .inl rfl
  · exact .inr rfl

end

/-- Settles O46: outside its own writers each part is in the frame of `exec_keeps`; only for PC do the skips need a second
look, for they move it by 2 or not at all. -/
theorem eachPartHasItsOwnWriters : Obligations.EachPartHasItsOwnWriters := by
  intro i s t _ hexec ht
  have frame := exec_keeps hexec ht
  refine ⟨?_, ?_, ?_, ?_, ?_, ?_, ?_, ?_⟩
  · exact or_iff_not_imp_right.2 fun hw => frame.i (mt i_mem_partsWritten_iff.1 hw)
  · exact or_iff_not_imp_right.2 fun hw => frame.stack (mt stack_mem_partsWritten_iff.1 hw)
  · exact or_iff_not_imp_right.2 fun hw => frame.dt (mt dt_mem_partsWritten_iff.1 hw)
  · exact or_iff_not_imp_right.2 fun hw => frame.st (mt st_mem_partsWritten_iff.1 hw)
  · exact or_iff_not_imp_right.2 fun hw => frame.fb (mt fb_mem_partsWritten_iff.1 hw)
  · exact or_iff_not_imp_right.2 fun hw => frame.mem (mt mem_mem_partsWritten_iff.1 hw)
  · exact or_iff_not_imp_right.2 fun hw => frame.wait (mt wait_mem_partsWritten_iff.1 hw)
  · by_cases hp : Part.pc ∈ partsWritten i
    · rcases pc_mem_partsWritten_iff.1 hp with hj | hc | hr | hv | hskip
      · exact .inr (.inl hj)
      · exact .inr (.inr (.inl hc))
      · exact .inr (.inr (.inr (.inl hr)))
      · exact .inr (.inr (.inr (.inr (.inl hv))))
      · exact (pc_of_isSkip hskip hexec).imp_right fun h2 => .inr (.inr (.inr (.inr ⟨h2, hskip⟩)))
    · exact .inl (frame.pc hp)

/-! ### The flag -/

theorem State.reg_vf_setRegFlag (s : State) (x : Nibble) (b : Byte) (c : Bool) :
    (s.setRegFlag x b c).reg vf = flagByte c := by
  rw [State.reg_setRegFlag, if_pos rfl]

/-- DRW writes VF last, as a flag, unless it faults (R153). -/
theorem drwVxVyN_writes_flag {x y n : Nibble} {s t : State} (h : exec (.drwVxVyN x y n) s = .next t)
    (ht : t.halt = none) : ∃ c, t.reg vf = flagByte c := by
  cases h
  obtain ⟨bs, _, hend⟩ := endInstr_map_of_running ht
  rw [hend]
  exact ⟨_, State.reg_setReg_self _ vf _⟩

/-- A flag-writing instruction that ends running has written a flag into VF last, whatever its operands (R22, R120). -/
theorem exec_writes_flag {i : Instr} {s t : State} (hi : writesFlag i = true) (h : exec i s = .next t)
    (ht : t.halt = none) : ∃ c, t.reg vf = flagByte c := by
  cases i with
  | addVxVy | subVxVy | shrVx | subnVxVy | shlVx =>
    cases h
    exact ⟨_, State.reg_vf_setRegFlag ..⟩
  | drwVxVyN => exact drwVxVyN_writes_flag h ht
  | _ => cases hi

/-- Settles O45: what such an instruction leaves in VF is a flag. -/
theorem flagWritersLeaveVfZeroOrOne : Obligations.FlagWritersLeaveVfZeroOrOne := by
  intro i s t hi _ hexec ht
  obtain ⟨c, hc⟩ := exec_writes_flag hi hexec ht
  exact hc ▸ flagByte_zero_or_one c

/-! ### The state after reset -/

@[simp] theorem reset_reg (x : Nibble) : State.reset.reg x = 0 := by
  simp [State.reg, State.reset]

@[simp] theorem reset_stk (k : Fin 16) : State.reset.stk[k] = 0 := by
  simp [State.reset]

/-- Outside the font region a byte of M is reset to zero (R41). -/
theorem resetByte_outside_font {a : Nat} (h : a < 0x050 ∨ 0x0A0 ≤ a) : Config.resetByte a = 0 :=
  if_neg (by simp only [Config.fontBase, Config.fontSize]; omega)

/-- Settles O11: each value of R41's table, with glyph 0 of the font read from its five cells. -/
theorem resetStateHasSpecValues : Obligations.ResetStateHasSpecValues :=
  ⟨reset_reg, rfl, rfl, rfl, reset_stk, rfl, rfl, pixel_fbClear, rfl, rfl, rfl, rfl, rfl, rfl, rfl,
    fun _ => resetByte_outside_font⟩

/-- Settles O48: the memory list after reset is canonical, and without a HALT record there is none to be illegal. -/
theorem resetMeetsInvariant : Obligations.ResetMeetsInvariant :=
  ⟨rfl, Memory.wf_reset, fun _ h => by cases h⟩

end Sys2Proof.Machine
end

section
/-! Decoding undoes encoding (spec/30_encoding.md). The fields of the word of an instruction are read back by the laws of
its form; `i` then selects the group, and in the groups 0, 8, E and F the field `nnn`, `n` or `kk` selects the row. -/

namespace Sys2Proof

/-- The word of an instruction matches the row of that instruction (R72, R77, R79). -/
theorem decodeOp_encode (i : Instr) : decodeOp (encode i) = some i := by
  cases i with
  | cls | ret => rfl
  | jpNnn | callNnn | seVxKk | sneVxKk | seVxVy | ldVxKk | addVxKk | sneVxVy | ldINnn | jpV0Nnn | rndVxKk | drwVxVyN =>
    simp [encode, decodeOp]
  | ldVxVy | orVxVy | andVxVy | xorVxVy | addVxVy | subVxVy | shrVx | subnVxVy | shlVx =>
    simp [encode, decodeOp, decodeGroup8]
  | skpVx | sknpVx => simp [encode, decodeOp, decodeGroupE]
  | ldVxDt | ldVxK | ldDtVx | ldStVx | addIVx | ldFVx | ldBVx | ldMemIVx | ldVxMemI =>
    simp [encode, decodeOp, decodeGroupF]

@[simp] theorem decodeWord_encode (i : Instr) : decodeWord (encode i) = .ok i := by
  simp only [decodeWord, decodeOp_encode]

/-- The two bytes of an instruction at the head of a stream are decoded as that instruction (R59, R70). -/
theorem decode_encodeBytes_append (i : Instr) (rest : List Byte) : decode (encodeBytes i ++ rest) = .ok (i, rest) := by
  simp only [encodeBytes, List.cons_append, List.nil_append, decode, wordOfBytes_bytes, decodeWord_encode]
  rfl

/-- Settles O2, for the stream by `decode_encodeBytes_append` and for the word by `decodeWord_encode`. -/
theorem decodeOfEncodeIsInstruction : Obligations.DecodeOfEncodeIsInstruction :=
  fun i rest _ => ⟨decode_encodeBytes_append i rest, decodeWord_encode i⟩

end Sys2Proof
end

section
/-! A stored instruction is what the next Step executes (spec/20_memory.md R65): what a block store leaves in M, and what
a scripted Step fetches from there. -/

namespace Sys2Proof.Machine

/-- A Step that a script presents to a core that is neither halted nor waiting runs the instruction at PC (R74, R205). -/
theorem step_scripted_instr {s : State} {i : Instr} {k : BitVec 16} {r : Byte} {es : List Event} (hh : s.halt = none)
    (hw : s.wait = .run) (hs : s.env.script = .step k r :: es) (hp : s.pc.toNat ≤ 4094)
    (hd : decodeWord s.fetched = .ok i) : step s = exec i ((s.setScript es).latchInputs k r).advance :=
  calc
    step s = applyEvent (.step k r) (s.setScript es) := step_script hs
    _ = stepRun ((s.setScript es).latchInputs k r) :=
      applyEvent_step_running (s := s.setScript es) hh hw k r
    _ = exec i ((s.setScript es).latchInputs k r).advance := stepRun_instr hp hd

/-- The state with V0 to Vx stored from I on: what `LD [I], Vx` leaves when all its bytes lie in M (R144). -/
def State.storeRegs (s : State) (x : Nibble) : State := s.setMem (s.mem.writeBytes (s.ea 0) (s.regsUpTo x))

theorem exec_ldMemIVx {s : State} {x : Nibble} (h : s.i.toNat + x.toNat ≤ 4095) :
    exec (.ldMemIVx x) s = .next (s.storeRegs x) := by
  have hb : s.ea 0 + (s.regsUpTo x).length ≤ 4096 := by
    rw [State.length_regsUpTo, State.ea]
    omega
  simp only [exec, execLdMemIVx, writeBlock_ok hb]
  rfl

/-- Byte r of the stored block is Vr (R63, R144). -/
theorem State.byteAt_storeRegs {s : State} {x r : Nibble} (h : r.toNat ≤ x.toNat) :
    (s.storeRegs x).byteAt (s.ea r.toNat) = s.reg r := by
  have hin : s.ea 0 ≤ s.ea r.toNat ∧ s.ea r.toNat < s.ea 0 + (x.toNat + 1) := by
    simp only [State.ea]
    omega
  have hoff : s.ea r.toNat - s.ea 0 = r.toNat := by
    simp only [State.ea]
    omega
  rw [State.storeRegs, State.byteAt_setMem, Memory.read_writeBytes, State.length_regsUpTo, if_pos hin, hoff,
    State.getD_regsUpTo s x r h]

/-- After a block store at PC the word there is made of V0 and V1 (R59, R65). -/
theorem State.fetched_storeRegs {s : State} {x : Nibble} (hx : 1 ≤ x.toNat) (hpc : s.i.toNat = s.pc.toNat) :
    (s.storeRegs x).fetched = wordOfBytes (s.reg 0) (s.reg 1) := by
  have h0 : (s.storeRegs x).byteAt s.pc.toNat = s.reg 0 := hpc ▸ State.byteAt_storeRegs (r := 0) (Nat.zero_le _)
  have h1 : (s.storeRegs x).byteAt (s.pc.toNat + 1) = s.reg 1 := hpc ▸ State.byteAt_storeRegs (r := 1) hx
  exact congrArg₂ wordOfBytes h0 h1

/-- Settles O36: the store leaves V0 and V1 at PC, and the scripted Step fetches them. -/
theorem storedWordIsFetchedNext : Obligations.StoredWordIsFetchedNext := by
  intro s t x i k r es hx hpc hle hhalt hwait hscript hdec hexec
  cases (exec_ldMemIVx hle).symm.trans hexec
  have hfetch : decodeWord (s.storeRegs x).fetched = .ok i := by rw [State.fetched_storeRegs hx hpc, hdec]
  have hpc_le : s.pc.toNat ≤ 4094 := by omega
  exact step_scripted_instr (s := s.storeRegs x) hhalt hwait hscript hpc_le hfetch

end Sys2Proof.Machine
end

section
/-! Encoding undoes decoding, and the decoder reads the rows of the opcode table (spec/30_encoding.md, R79). Each
instruction has a row of its own, and a row accepts exactly the words that decode to an instruction of that row. -/

namespace Sys2Proof

/-! ### Encoding of decoding: a word is its form with the fields it was decoded by -/

theorem formA_of_fields {w : Word} {i : Nibble} {nnn : Addr} (hi : fieldI w = i) (hn : fieldNnn w = nnn) :
    formA i nnn = w := by
  rw [← hi, ← hn, formA_fields]

theorem formRK_of_fields {w : Word} {i : Nibble} {kk : Byte} (hi : fieldI w = i) (hk : fieldKk w = kk) :
    formRK i (fieldX w) kk = w := by
  rw [← hi, ← hk, formRK_fields]

theorem formRRN_of_fields {w : Word} {i n : Nibble} (hi : fieldI w = i) (hn : fieldN w = n) :
    formRRN i (fieldX w) (fieldY w) n = w := by
  rw [← hi, ← hn, formRRN_fields]

theorem encode_of_decodeGroup0 {w : Word} {i : Instr} (hi : fieldI w = 0x0) (h : decodeGroup0 w = some i) :
    encode i = w := by
  unfold decodeGroup0 at h
  split at h <;> cases h <;> exact formA_of_fields hi ‹_›

theorem encode_of_decodeGroup8 {w : Word} {i : Instr} (hi : fieldI w = 0x8) (h : decodeGroup8 w = some i) :
    encode i = w := by
  unfold decodeGroup8 at h
  split at h <;> cases h <;> exact formRRN_of_fields hi ‹_›

theorem encode_of_decodeGroupE {w : Word} {i : Instr} (hi : fieldI w = 0xE) (h : decodeGroupE w = some i) :
    encode i = w := by
  unfold decodeGroupE at h
  split at h <;> cases h <;> exact formRK_of_fields hi ‹_›

theorem encode_of_decodeGroupF {w : Word} {i : Instr} (hi : fieldI w = 0xF) (h : decodeGroupF w = some i) :
    encode i = w := by
  unfold decodeGroupF at h
  split at h <;> cases h <;> exact formRK_of_fields hi ‹_›

/-- No bit of a word that decodes is lost: `i` is the group's, and the other fields are operands or were compared (R79,
R82). The arm `h_k` of the split is that of `i` = k - 1. -/
theorem encode_of_decodeOp {w : Word} {i : Instr} (h : decodeOp w = some i) : encode i = w := by
  unfold decodeOp at h
  split at h
  case h_1 hi => exact encode_of_decodeGroup0 hi h
  case h_9 hi => exact encode_of_decodeGroup8 hi h
  case h_15 hi => exact encode_of_decodeGroupE hi h
  case h_16 hi => exact encode_of_decodeGroupF hi h
  case h_17 => cases h
  case h_6 hi | h_10 hi =>
    obtain ⟨hn, hins⟩ := Option.ite_none_right_eq_some.1 h
    cases hins
    exact formRRN_of_fields hi hn
  case h_14 hi =>
    cases h
    exact formRRN_of_fields hi rfl
  case h_2 hi | h_3 hi | h_11 hi | h_12 hi =>
    cases h
    exact formA_of_fields hi rfl
  all_goals
    cases h
    exact formRK_of_fields ‹_› rfl

theorem decodeWord_eq_ok_iff {w : Word} {i : Instr} : decodeWord w = .ok i ↔ decodeOp w = some i := by
  unfold decodeWord
  cases decodeOp w <;> simp

theorem encode_of_decodeWord {w : Word} {i : Instr} (h : decodeWord w = .ok i) : encode i = w :=
  encode_of_decodeOp (decodeWord_eq_ok_iff.1 h)

theorem decodeWord_of_decode {hi lo : Byte} {i : Instr} (h : decode [hi, lo] = .ok (i, [])) :
    decodeWord (wordOfBytes hi lo) = .ok i := by
  rcases decodeWord_cases (wordOfBytes hi lo) with ⟨j, _, hd⟩ | ⟨_, hd⟩
  · simp only [decode, hd] at h
    cases h
    exact hd
  · simp only [decode, hd] at h
    cases h

theorem Instr.wellFormed_eq_true (i : Instr) : i.wellFormed = true := by
  cases i <;> rfl

/-- Settles O3, by `encode_of_decodeWord`; every instruction is well-formed. -/
theorem encodeOfDecodeIsWord : Obligations.EncodeOfDecodeIsWord :=
  fun _ i h => ⟨encode_of_decodeWord h, i.wellFormed_eq_true⟩

/-! ### A word under the masks of the table: a mask keeps some fields of a form and clears the others -/

theorem nibble_and_ones (b : Nibble) : b &&& 0xF#4 = b := BitVec.and_allOnes
theorem byte_and_ones (b : Byte) : b &&& 0xFF#8 = b := BitVec.and_allOnes
theorem word_and_ones (w : Word) : w &&& 0xFFFF = w := BitVec.and_allOnes

theorem formA_and (i j : Nibble) (a b : Addr) : formA i a &&& formA j b = formA (i &&& j) (a &&& b) :=
  BitVec.and_append

theorem formRK_and (i j x u : Nibble) (a b : Byte) :
    formRK i x a &&& formRK j u b = formRK (i &&& j) (x &&& u) (a &&& b) :=
  BitVec.and_append.trans (congrArg (· ++ (a &&& b)) BitVec.and_append)

theorem formRRN_and (i j x u y v n m : Nibble) :
    formRRN i x y n &&& formRRN j u v m = formRRN (i &&& j) (x &&& u) (y &&& v) (n &&& m) := by
  have hixy : (i ++ x ++ y) &&& (j ++ u ++ v) = (i &&& j) ++ (x &&& u) ++ (y &&& v) :=
    BitVec.and_append.trans (congrArg (· ++ (y &&& v)) BitVec.and_append)
  exact BitVec.and_append.trans (congrArg (· ++ (n &&& m)) hixy)

theorem and_mask_i (w : Word) : w &&& 0xF000 = formA (fieldI w) 0 :=
  calc
    w &&& 0xF000 = formA (fieldI w) (fieldNnn w) &&& formA 0xF 0 := by rw [formA_fields]; rfl
    _ = formA (fieldI w) 0 := by simp [formA_and, nibble_and_ones]

theorem and_mask_i_kk (w : Word) : w &&& 0xF0FF = formRK (fieldI w) 0 (fieldKk w) :=
  calc
    w &&& 0xF0FF = formRK (fieldI w) (fieldX w) (fieldKk w) &&& formRK 0xF 0 0xFF := by rw [formRK_fields]; rfl
    _ = formRK (fieldI w) 0 (fieldKk w) := by simp [formRK_and, nibble_and_ones, byte_and_ones]

theorem and_mask_i_n (w : Word) : w &&& 0xF00F = formRRN (fieldI w) 0 0 (fieldN w) :=
  calc
    w &&& 0xF00F = formRRN (fieldI w) (fieldX w) (fieldY w) (fieldN w) &&& formRRN 0xF 0 0 0xF := by
      rw [formRRN_fields]; rfl
    _ = formRRN (fieldI w) 0 0 (fieldN w) := by simp [formRRN_and, nibble_and_ones]

/-! ### The row of an instruction -/

/-- The bits of an instruction's word that are not operands (R79). -/
def Instr.mask : Instr → Word
  | .cls | .ret => 0xFFFF
  | .jpNnn _ | .callNnn _ | .seVxKk _ _ | .sneVxKk _ _ | .ldVxKk _ _ | .addVxKk _ _ | .ldINnn _ | .jpV0Nnn _
  | .rndVxKk _ _ | .drwVxVyN _ _ _ => 0xF000
  | .seVxVy _ _ | .ldVxVy _ _ | .orVxVy _ _ | .andVxVy _ _ | .xorVxVy _ _ | .addVxVy _ _ | .subVxVy _ _ | .shrVx _ _
  | .subnVxVy _ _ | .shlVx _ _ | .sneVxVy _ _ => 0xF00F
  | .skpVx _ | .sknpVx _ | .ldVxDt _ | .ldVxK _ | .ldDtVx _ | .ldStVx _ | .addIVx _ | .ldFVx _ | .ldBVx _
  | .ldMemIVx _ | .ldVxMemI _ => 0xF0FF

/-- The row of the opcode table an instruction belongs to: `row_mem_opcodeTable`. -/
def Instr.row (i : Instr) : OpcodeRow := ⟨i.mnemonic, i.mask, encode i &&& i.mask⟩

theorem accepts_iff_and_eq {r : OpcodeRow} {w : Word} : r.accepts w = true ↔ w &&& r.mask = r.bits := beq_iff_eq

/-- The row of the instruction a word decodes to accepts the word (R79). -/
theorem row_accepts_of_decodeWord {w : Word} {i : Instr} (h : decodeWord w = .ok i) : i.row.accepts w = true :=
  accepts_iff_and_eq.2 (congrArg (· &&& i.mask) (encode_of_decodeWord h).symm)

theorem row_mem_opcodeTable (i : Instr) : i.row ∈ opcodeTable := by
  cases i with
  | cls | ret => decide
  | jpNnn | callNnn | seVxKk | sneVxKk | ldVxKk | addVxKk | ldINnn | jpV0Nnn | rndVxKk | drwVxVyN =>
    simp only [Instr.row, Instr.mask, and_mask_i, encode, fieldI_formA, fieldI_formRK, fieldI_formRRN, Instr.mnemonic]
    decide
  | seVxVy | ldVxVy | orVxVy | andVxVy | xorVxVy | addVxVy | subVxVy | shrVx | subnVxVy | shlVx | sneVxVy =>
    simp only [Instr.row, Instr.mask, and_mask_i_n, encode, fieldI_formRRN, fieldN_formRRN, Instr.mnemonic]
    decide
  | skpVx | sknpVx | ldVxDt | ldVxK | ldDtVx | ldStVx | addIVx | ldFVx | ldBVx | ldMemIVx | ldVxMemI =>
    simp only [Instr.row, Instr.mask, and_mask_i_kk, encode, fieldI_formRK, fieldKk_formRK, Instr.mnemonic]
    decide

/-- Each row's own bits decode to an instruction of that row (all operands 0). -/
theorem row_of_decodeOp_bits : ∀ r ∈ opcodeTable, ∃ i, decodeOp r.bits = some i ∧ i.row = r := by
  have h : ∀ r ∈ opcodeTable, (decodeOp r.bits).map Instr.row = some r := by decide
  exact fun r hr => Option.map_eq_some_iff.1 (h r hr)

/-- The decoder looks at no bit outside the mask: a word that agrees under the mask of `j` with the word of `j` decodes
to an instruction of the same mnemonic and mask. -/
theorem decodeOp_of_and_mask {w : Word} {j : Instr} (h : w &&& j.mask = encode j &&& j.mask) :
    ∃ i, decodeOp w = some i ∧ i.mnemonic = j.mnemonic ∧ i.mask = j.mask := by
  cases j with
  | cls | ret =>
    simp only [Instr.mask, word_and_ones] at h
    exact ⟨_, h ▸ decodeOp_encode _, rfl, rfl⟩
  | jpNnn | callNnn | seVxKk | sneVxKk | ldVxKk | addVxKk | ldINnn | jpV0Nnn | rndVxKk | drwVxVyN =>
    have hi := congrArg fieldI h
    simp only [Instr.mask, and_mask_i, encode, fieldI_formA, fieldI_formRK, fieldI_formRRN] at hi
    simp [decodeOp, hi, Instr.mask, Instr.mnemonic]
  | seVxVy | ldVxVy | orVxVy | andVxVy | xorVxVy | addVxVy | subVxVy | shrVx | subnVxVy | shlVx | sneVxVy =>
    have hi := congrArg fieldI h
    have hn := congrArg fieldN h
    simp only [Instr.mask, and_mask_i_n, encode, fieldI_formRRN, fieldN_formRRN] at hi hn
    simp [decodeOp, decodeGroup8, hi, hn, Instr.mask, Instr.mnemonic]
  | skpVx | sknpVx | ldVxDt | ldVxK | ldDtVx | ldStVx | addIVx | ldFVx | ldBVx | ldMemIVx | ldVxMemI =>
    have hi := congrArg fieldI h
    have hk := congrArg fieldKk h
    simp only [Instr.mask, and_mask_i_kk, encode, fieldI_formRK, fieldKk_formRK] at hi hk
    simp [decodeOp, decodeGroupE, decodeGroupF, hi, hk, Instr.mask, Instr.mnemonic]

/-- A row accepts exactly the words that decode to an instruction of the row (R79, R81). -/
theorem accepts_iff_decodeWord {r : OpcodeRow} (hr : r ∈ opcodeTable) (w : Word) :
    r.accepts w = true ↔ ∃ i, decodeWord w = .ok i ∧ i.row = r := by
  constructor
  · intro hacc
    obtain ⟨j, _, rfl⟩ := row_of_decodeOp_bits r hr
    have hbits : w &&& j.mask = encode j &&& j.mask := accepts_iff_and_eq.1 hacc
    obtain ⟨i, hdec, hmnemonic, hmask⟩ := decodeOp_of_and_mask hbits
    refine ⟨i, decodeWord_eq_ok_iff.2 hdec, ?_⟩
    rw [Instr.row, Instr.row, hmnemonic, hmask, encode_of_decodeOp hdec, hbits]
  · rintro ⟨i, hdec, rfl⟩
    exact row_accepts_of_decodeWord hdec

/-- A word decodes exactly when some row accepts it (R79, R80). -/
theorem exists_decodeWord_iff_accepted (w : Word) :
    (∃ i, decodeWord w = .ok i) ↔ ∃ r ∈ opcodeTable, r.accepts w = true := by
  constructor
  · rintro ⟨i, hdec⟩
    exact ⟨i.row, row_mem_opcodeTable i, row_accepts_of_decodeWord hdec⟩
  · rintro ⟨r, hr, hacc⟩
    obtain ⟨i, hdec, _⟩ := (accepts_iff_decodeWord hr w).1 hacc
    exact ⟨i, hdec⟩

/-- A word is rejected under its own name exactly when it decodes to nothing (R80). -/
theorem decodeWord_unknown_iff (w : Word) :
    decodeWord w = .error (.unknownEncoding w) ↔ ¬ ∃ i, decodeWord w = .ok i := by
  rcases decodeWord_cases w with ⟨i, _, h⟩ | ⟨_, h⟩ <;> simp [h]

/-- At most one row accepts a word: its row is that of the instruction it decodes to (R81). -/
theorem accepting_row_unique {w : Word} {r r' : OpcodeRow} (hr : r ∈ opcodeTable) (hr' : r' ∈ opcodeTable)
    (h : r.accepts w = true) (h' : r'.accepts w = true) : r = r' := by
  obtain ⟨i, hi, rfl⟩ := (accepts_iff_decodeWord hr w).1 h
  obtain ⟨i', hi', rfl⟩ := (accepts_iff_decodeWord hr' w).1 h'
  cases hi.symm.trans hi'
  rfl

/-- Settles O4: the row of the decoded instruction accepts the word, and by `accepts_iff_decodeWord` no other does. -/
theorem decoderMatchesOpcodeTable : Obligations.DecoderMatchesOpcodeTable := by
  intro w
  refine ⟨fun i hdec => ?_, ?_, exists_decodeWord_iff_accepted w, fun r hr r' hr' => accepting_row_unique hr hr'⟩
  · exact ⟨i.row, row_mem_opcodeTable i, row_accepts_of_decodeWord hdec, rfl⟩
  · rw [decodeWord_unknown_iff, exists_decodeWord_iff_accepted]
    simp only [not_exists, not_and, Bool.not_eq_true]

/-- Settles O1: ten of the words are the encodings of their instructions, and the decoder rejects the other four. -/
theorem specWordsDecodeAsListed : Obligations.SpecWordsDecodeAsListed :=
  ⟨decodeWord_encode .cls, decodeWord_encode .ret, decodeWord_encode (.callNnn 0xABC),
    decodeWord_encode (.seVxKk 0x4 0xC5), decodeWord_encode (.subVxVy 0xA 0xB), decodeWord_encode (.jpV0Nnn 0x234),
    decodeWord_encode (.drwVxVyN 0x1 0x2 0x5), decodeWord_encode (.skpVx 0xA), decodeWord_encode (.ldMemIVx 0x3),
    decodeWord_encode (.ldVxMemI 0x7), rfl, rfl, rfl, rfl⟩

end Sys2Proof
end

section
/-! A Step runs the instruction that the two bytes at PC decode to (spec/30_encoding.md R74), scripted or free. -/

namespace Sys2Proof.Machine

/-- `n` decrements of a timer, as subtraction that stops at 0 (R195). -/
theorem timerDownBy_eq_ofNat (n : Nat) (t : Byte) : timerDownBy n t = BitVec.ofNat 8 (t.toNat - n) := by
  rw [← timerDownBy_toNat, BitVec.ofNat_toNat, BitVec.setWidth_eq]

/-- The state that fetches in a free round: one free value drawn, the round's TimerTicks made and its Step's inputs
presented (R197, R200, R202; log 1). -/
def State.atFreeStep (s : State) : State :=
  (timerTicks (Config.freeTicks s.env.drawn) s.drawOne).latchInputs (Config.freeKeys s.env.drawn)
    (Config.freeRnd s.env.drawn)

/-- A free round on a core that is neither halted nor waiting runs the instruction at PC (R74, R205). -/
theorem step_free_instr {s : State} {i : Instr} (hh : s.halt = none) (hw : s.wait = .run) (hs : s.env.script = [])
    (hp : s.pc.toNat ≤ 4094) (hd : decodeWord s.fetched = .ok i) : step s = exec i s.atFreeStep.advance :=
  calc
    step s = freeRound s := step_free hs
    _ = stepRun s.atFreeStep :=
      applyEvent_step_running (s := timerTicks (Config.freeTicks s.env.drawn) s.drawOne) hh hw _ _
    _ = exec i s.atFreeStep.advance := stepRun_instr hp hd

/-- Settles O5: `step_scripted_instr` for a script, `step_free_instr` with the round's free values for an empty one. -/
theorem stepRunsDecodedInstruction : Obligations.StepRunsDecodedInstruction := by
  intro s i hhalt hwait hpc _ hbytes
  have hdec : decodeWord s.fetched = .ok i := decodeWord_of_decode hbytes
  refine ⟨fun k r es hs => step_scripted_instr hhalt hwait hs hpc hdec, fun hs => ?_⟩
  refine ⟨Config.freeTicks s.env.drawn, Config.freeKeys s.env.drawn, Config.freeRnd s.env.drawn, ?_⟩
  rw [step_free_instr hhalt hwait hs hpc hdec, ← timerDownBy_eq_ofNat, ← timerDownBy_eq_ofNat]
  rfl

end Sys2Proof.Machine
end

section
/-! Control flow (spec/40_control_flow.md): the jumps, the subroutine call and return, and the comparing skips. -/

namespace Sys2Proof.Machine

/-! ### Jumps -/

@[simp] theorem zextAddr_toNat (b : Byte) : (zextAddr b).toNat = b.toNat :=
  BitVec.toNat_setWidth_of_le (by decide)

/-- Settles O15: 1nnn is the encoding of JP nnn, which does nothing but set PC. -/
theorem jpSetsPcToNnn : Obligations.JpSetsPcToNnn :=
  fun nnn s => ⟨decodeWord_encode (.jpNnn nnn), s.setPc nnn, rfl, rfl, keeps_setPc s nnn⟩

/-- Settles O16: the addition of 12-bit addresses is the reduction modulo 4096, and V0 is zero-extended. -/
theorem jpV0AddsOffsetModulo4096 : Obligations.JpV0AddsOffsetModulo4096 := by
  intro nnn s
  refine ⟨s.setPc (nnn + zextAddr (s.reg 0)), rfl, ?_, keeps_setPc s _⟩
  rw [State.setPc_pc, BitVec.toNat_add, zextAddr_toNat]

/-! ### Subroutines -/

/-- The frame of CALL and of RET: a change of the stack, then the jump. -/
theorem Keeps.setPc_of_stack {s t : State} (h : Keeps [] [.stack] s t) (a : Addr) :
    Keeps [] [.pc, .stack] s (t.setPc a) :=
  (h.mono (by simp) (by simp)).trans ((keeps_setPc t a).mono (by simp) (by simp))

/-- `CALL nnn` whose Push succeeds jumps from the state Push leaves (R103). -/
theorem exec_callNnn_of_push {nnn : Addr} {s t : State} (h : push s.pc s = .ok t) :
    exec (.callNnn nnn) s = .next (t.setPc nnn) := by
  simp only [exec, execCallNnn, h]
  rfl

/-- `RET` whose Pop succeeds jumps to the popped address from the state Pop leaves (R101). -/
theorem exec_ret_of_pop {s t : State} {a : Addr} (h : pop s = .ok (a, t)) : exec .ret s = .next (t.setPc a) := by
  simp only [exec, execRet, h]
  rfl

/-- Pop answers alike in states that have the same stack (R31). -/
theorem pop_of_stack_eq {s t u : State} {a : Addr} (hsp : t.sp = s.sp) (hstk : t.stk = s.stk)
    (h : pop s = .ok (a, u)) : ∃ w, pop t = .ok (a, w) ∧ w.sp = u.sp := by
  have hs : s.sp.val ≠ 0 := fun h0 => by cases (pop_error h0).symm.trans h
  cases (pop_ok hs).symm.trans h
  have ht : t.sp.val ≠ 0 := hsp ▸ hs
  simp [pop_ok ht, hsp, hstk]

/-- Settles O17: below depth 16 Push succeeds and writes the one slot SP points at. -/
theorem callPushesPcAndJumps : Obligations.CallPushesPcAndJumps := by
  intro nnn s h
  have hpush := push_ok (a := s.pc) h
  refine ⟨_, exec_callNnn_of_push hpush, rfl, rfl, ?_, fun k hk => ?_, (keeps_push hpush).setPc_of_stack nnn⟩
  · exact Vector.getElem_set_self h
  · exact Vector.getElem_set_ne h k.isLt hk.symm

/-- Settles O18: above depth 0 Pop succeeds, answers the slot SP - 1 and writes no slot. -/
theorem retPopsIntoPc : Obligations.RetPopsIntoPc := by
  intro s h
  have hpop := pop_ok (s := s) (by omega)
  exact ⟨_, exec_ret_of_pop hpop, rfl, rfl, rfl, (keeps_pop hpop).setPc_of_stack _⟩

/-- Settles O20: Pop after the Push of CALL answers the pushed PC (`pop_push`), in `u` as behind the CALL. -/
theorem retAfterCallReturnsBehindIt : Obligations.RetAfterCallReturnsBehindIt := by
  intro nnn s t u hdepth hcall husp hustk
  obtain ⟨pushed, hpush⟩ : ∃ pushed, push s.pc s = .ok pushed := ⟨_, push_ok hdepth⟩
  cases (exec_callNnn_of_push hpush).symm.trans hcall
  obtain ⟨v, hpop, hvsp⟩ := pop_push hpush
  obtain ⟨w, hpop_u, hwsp⟩ := pop_of_stack_eq (s := pushed) husp hustk hpop
  exact ⟨w.setPc s.pc, exec_ret_of_pop hpop_u, rfl, hwsp.trans hvsp, (keeps_pop hpop_u).setPc_of_stack s.pc⟩

/-! ### Comparing skips -/

/-- An instruction that is `Skip()` on a condition moves PC by 2 exactly when the condition holds (R100; D2, log 5). -/
theorem exec_skips_iff {i : Instr} {s : State} {c : Bool} {p : Prop} [Decidable p]
    (hexec : exec i s = .next (s.skipIf c)) (hc : c = true ↔ p) :
    ∃ t, exec i s = .next t ∧ t.pc = (if p then s.pc + 2 else s.pc) ∧ Keeps [] [.pc] s t :=
  ⟨s.skipIf c, hexec, (State.skipIf_pc s c).trans (if_congr hc rfl rfl), keeps_skipIf s c⟩

/-- Settles O21: each of the four is `Skip()` on its comparison. -/
theorem comparingSkipsMovePc : Obligations.ComparingSkipsMovePc :=
  fun _ _ _ _ => ⟨exec_skips_iff rfl beq_iff_eq, exec_skips_iff rfl bne_iff_ne, exec_skips_iff rfl beq_iff_eq,
    exec_skips_iff rfl bne_iff_ne⟩

end Sys2Proof.Machine
end

section
/-! Arithmetic, logic, shifts and random (spec/41_alu.md): the result goes into Vx, and the flag, where there is one, into
VF last (R120). -/

namespace Sys2Proof.Machine

/-! ### The bytes that are written -/

theorem flagByte_decide (p : Prop) [Decidable p] : flagByte (decide p) = if p then 1 else 0 := by
  simp only [flagByte, decide_eq_true_eq]

/-- The carry is 1 exactly when the true sum exceeds 255 (R127). -/
theorem flagByte_carryFlag (a b : Byte) :
    flagByte (carryFlag a b) = if 255 < a.toNat + b.toNat then 1 else 0 := flagByte_decide _

/-- The no-borrow is 1 exactly when the minuend is at least the subtrahend (R128, R130). -/
theorem flagByte_noBorrowFlag (a b : Byte) :
    flagByte (noBorrowFlag a b) = if b.toNat ≤ a.toNat then 1 else 0 := flagByte_decide _

theorem flagByte_toNat (c : Bool) : (flagByte c).toNat = c.toNat := by cases c <;> rfl

/-- The bit a right shift loses is the remainder of the halving (R129). -/
theorem flagByte_shrFlag_toNat (a : Byte) : (flagByte (shrFlag a)).toNat = a.toNat % 2 :=
  calc
    (flagByte (shrFlag a)).toNat = (a.toNat.testBit 0).toNat := flagByte_toNat _
    _ = a.toNat % 2 := by rw [Nat.toNat_testBit, pow_zero, Nat.div_one]

/-- The bit a left shift loses is the carry of the doubling (R131). -/
theorem flagByte_shlFlag_toNat (a : Byte) : (flagByte (shlFlag a)).toNat = a.toNat / 128 :=
  calc
    (flagByte (shlFlag a)).toNat = (a.toNat.testBit 7).toNat := flagByte_toNat _
    _ = a.toNat / 128 % 2 := Nat.toNat_testBit _ _
    _ = a.toNat / 128 := Nat.mod_eq_of_lt (by have := a.isLt; omega)

theorem byte_toNat_sub (a b : Byte) : (a - b).toNat = (a.toNat + 256 - b.toNat) % 256 := by
  have := b.isLt
  rw [BitVec.toNat_sub]
  omega

theorem byte_toNat_shiftRight_one (a : Byte) : (a >>> 1).toNat = a.toNat / 2 := by
  rw [BitVec.toNat_ushiftRight, Nat.shiftRight_one]

theorem byte_toNat_shiftLeft_one (a : Byte) : (a <<< 1).toNat = a.toNat * 2 % 256 := by
  rw [BitVec.toNat_shiftLeft, Nat.shiftLeft_eq, pow_one]

/-! ### How an instruction that writes a register ends -/

section
variable {i : Instr} {s : State} {x : Nibble} {b : Byte}

/-- An instruction that only writes Vx leaves the result there and everything else as it was. -/
theorem exec_writes_reg (hexec : exec i s = .next (s.setReg x b)) :
    ∃ t, exec i s = .next t ∧ t.reg x = b ∧ Keeps [x] [] s t :=
  ⟨s.setReg x b, hexec, State.reg_setReg_self s x b, keeps_setReg s x b⟩

/-- The same, for a result that is given bit by bit. -/
theorem exec_writes_reg_bits {f : Nat → Bool} (hexec : exec i s = .next (s.setReg x b))
    (hbits : ∀ j, b.getLsbD j = f j) :
    ∃ t, exec i s = .next t ∧ Keeps [x] [] s t ∧ ∀ j, j < 8 → (t.reg x).getLsbD j = f j := by
  obtain ⟨t, ht, hreg, frame⟩ := exec_writes_reg hexec
  exact ⟨t, ht, frame, fun j _ => hreg ▸ hbits j⟩

/-- An instruction that writes Vx and then a flag leaves the result in Vx, unless that is VF, and the flag in VF (R120). -/
theorem exec_writes_reg_then_flag {c : Bool} {n : Nat} {v : Byte} (hexec : exec i s = .next (s.setRegFlag x b c))
    (hresult : b.toNat = n) (hflag : flagByte c = v) :
    ∃ t, exec i s = .next t ∧ (x ≠ vf → (t.reg x).toNat = n) ∧ t.reg vf = v ∧ Keeps [x, vf] [] s t := by
  refine ⟨s.setRegFlag x b c, hexec, fun hx => ?_, ?_, keeps_setRegFlag s x b c⟩
  · rw [State.reg_setRegFlag, if_neg hx, if_pos rfl, hresult]
  · rw [State.reg_vf_setRegFlag, hflag]

/-- The same, for a flag that is given as a number. -/
theorem exec_writes_reg_then_flag_toNat {c : Bool} {n m : Nat} (hexec : exec i s = .next (s.setRegFlag x b c))
    (hresult : b.toNat = n) (hflag : (flagByte c).toNat = m) :
    ∃ t, exec i s = .next t ∧ (x ≠ vf → (t.reg x).toNat = n) ∧ (t.reg vf).toNat = m ∧ Keeps [x, vf] [] s t := by
  obtain ⟨t, ht, hreg, hvf, frame⟩ := exec_writes_reg_then_flag hexec hresult rfl
  exact ⟨t, ht, hreg, hvf ▸ hflag, frame⟩

end

/-! ### The statements -/

/-- Settles O25: addition of bytes is the sum modulo 256, and the carry is written behind it. -/
theorem addWritesSumThenCarry : Obligations.AddWritesSumThenCarry :=
  fun _ x y => ⟨decodeWord_encode (.addVxVy x y),
    exec_writes_reg_then_flag rfl (BitVec.toNat_add _ _) (flagByte_carryFlag _ _)⟩

/-- Settles O26: SUBN is SUB with the operands exchanged, in the difference and in the flag. -/
theorem subtractionsWriteNoBorrow : Obligations.SubtractionsWriteNoBorrow :=
  fun _ x y =>
    ⟨⟨decodeWord_encode (.subVxVy x y),
        exec_writes_reg_then_flag rfl (byte_toNat_sub _ _) (flagByte_noBorrowFlag _ _)⟩,
      ⟨decodeWord_encode (.subnVxVy x y),
        exec_writes_reg_then_flag rfl (byte_toNat_sub _ _) (flagByte_noBorrowFlag _ _)⟩⟩

/-- Settles O27: the words keep the field y, the executions ignore it; result and flag are the two parts of Vx divided by
2, or of its double divided by 256. -/
theorem shiftsUseOnlyVx : Obligations.ShiftsUseOnlyVx :=
  fun _ x y =>
    ⟨⟨decodeWord_encode (.shrVx x y),
        exec_writes_reg_then_flag_toNat rfl (byte_toNat_shiftRight_one _) (flagByte_shrFlag_toNat _)⟩,
      ⟨decodeWord_encode (.shlVx x y),
        exec_writes_reg_then_flag_toNat rfl (byte_toNat_shiftLeft_one _) (flagByte_shlFlag_toNat _)⟩⟩

/-- Settles O23: each of the three is one register write, and the addition of bytes is the sum modulo 256. -/
theorem immediateAndCopyResults : Obligations.ImmediateAndCopyResults := by
  intro s x y kk
  refine ⟨⟨decodeWord_encode (.ldVxKk x kk), exec_writes_reg rfl⟩, ⟨decodeWord_encode (.addVxKk x kk), ?_⟩,
    ⟨decodeWord_encode (.ldVxVy x y), exec_writes_reg rfl⟩⟩
  obtain ⟨t, ht, hreg, frame⟩ := exec_writes_reg (i := .addVxKk x kk) (s := s) rfl
  exact ⟨t, ht, hreg ▸ BitVec.toNat_add _ _, frame⟩

/-- Settles O24: each of the three is one register write, of a byte the operation gives bit by bit. -/
theorem logicResultsLeaveVfAlone : Obligations.LogicResultsLeaveVfAlone :=
  fun _ x y =>
    ⟨⟨decodeWord_encode (.orVxVy x y), exec_writes_reg_bits rfl fun _ => BitVec.getLsbD_or⟩,
      ⟨decodeWord_encode (.andVxVy x y), exec_writes_reg_bits rfl fun _ => BitVec.getLsbD_and⟩,
      ⟨decodeWord_encode (.xorVxVy x y), exec_writes_reg_bits rfl fun _ => BitVec.getLsbD_xor⟩⟩

/-- Settles O28: the byte written is the bitwise and of the random input and the mask. -/
theorem rndMasksRandomByte : Obligations.RndMasksRandomByte :=
  fun _ _ _ => exec_writes_reg_bits rfl fun _ => BitVec.getLsbD_and

end Sys2Proof.Machine
end

section
/-! The address register and the memory transfers (spec/42_index_memory.md): what the writers of I leave there, what a
block of bytes stored from I on leaves in M, and what a block load brings back from there. -/

namespace Sys2Proof.Machine

/-! ### The address register -/

@[simp] theorem zextNnn_toNat (nnn : Addr) : (zextNnn nnn).toNat = nnn.toNat :=
  BitVec.toNat_setWidth_of_le (by decide)

@[simp] theorem zextByte_toNat (b : Byte) : (zextByte b).toNat = b.toNat :=
  BitVec.toNat_setWidth_of_le (by decide)

/-- The glyph address of a byte's low digit lies in the font region, so it fits I (R54, R142). -/
theorem glyphAddr_toNat (b : Byte) :
    (BitVec.ofNat 16 (Config.fontBase + b.toNat % 16 * 5)).toNat = 0x050 + b.toNat % 16 * 5 :=
  Nat.mod_eq_of_lt (by simp only [Config.fontBase]; omega)

/-- An instruction that only writes I leaves the value there and everything else as it was. -/
theorem exec_writes_i {i : Instr} {s : State} {w : Word} {n : Nat} (hexec : exec i s = .next (s.setI w))
    (hw : w.toNat = n) : ∃ t, exec i s = .next t ∧ t.i.toNat = n ∧ Keeps [] [.i] s t :=
  ⟨s.setI w, hexec, hw, keeps_setI s w⟩

theorem addI_toNat (w : Word) (b : Byte) : (w + zextByte b).toNat = (w.toNat + b.toNat) % 65536 := by
  rw [BitVec.toNat_add, zextByte_toNat]

/-- Settles O29: each of the three is one write of I, of a value that is zero-extended, reduced or in range. -/
theorem addressRegisterWriters : Obligations.AddressRegisterWriters :=
  fun _ nnn x =>
    ⟨⟨decodeWord_encode (.ldINnn nnn), exec_writes_i rfl (zextNnn_toNat nnn)⟩,
      ⟨decodeWord_encode (.addIVx x), exec_writes_i rfl (addI_toNat _ _)⟩,
      ⟨decodeWord_encode (.ldFVx x), exec_writes_i rfl (glyphAddr_toNat _)⟩⟩

/-! ### Stores -/

/-- The state with the bytes stored from I on: what both stores leave when all their bytes lie in M (R143, R144). -/
def State.storeBytes (s : State) (bs : List Byte) : State := s.setMem (s.mem.writeBytes (s.ea 0) bs)

theorem State.storeRegs_eq_storeBytes (s : State) (x : Nibble) : s.storeRegs x = s.storeBytes (s.regsUpTo x) := rfl

/-- A byte of the block is where it was stored (R63). -/
theorem State.byteAt_storeBytes_inside (s : State) (bs : List Byte) {r : Nat} (h : r < bs.length) :
    (s.storeBytes bs).byteAt (s.ea r) = bs.getD r 0 := by
  have hin : s.ea 0 ≤ s.ea r ∧ s.ea r < s.ea 0 + bs.length := by
    simp only [State.ea]
    omega
  have hoff : s.ea r - s.ea 0 = r := by
    simp only [State.ea]
    omega
  rw [State.storeBytes, State.byteAt_setMem, Memory.read_writeBytes, if_pos hin, hoff]

/-- A byte outside the block is as it was before the store (R63). -/
theorem State.byteAt_storeBytes_outside (s : State) (bs : List Byte) {a : Nat}
    (h : a < s.ea 0 ∨ s.ea bs.length ≤ a) : (s.storeBytes bs).byteAt a = s.byteAt a := by
  have hout : ¬ (s.ea 0 ≤ a ∧ a < s.ea 0 + bs.length) := by
    simp only [State.ea] at h ⊢
    omega
  rw [State.storeBytes, State.byteAt_setMem, Memory.read_writeBytes, if_neg hout]
  rfl

/-- Settles O31: byte r of the block is Vr, and the block has x + 1 bytes. -/
theorem storeBlockStoresV0ToVx : Obligations.StoreBlockStoresV0ToVx := by
  intro s x h
  refine ⟨s.storeRegs x, exec_ldMemIVx h, fun r hr => State.byteAt_storeRegs hr, fun a ha => ?_, keeps_setMem s _⟩
  rw [State.storeRegs_eq_storeBytes, s.byteAt_storeBytes_outside]
  rwa [State.length_regsUpTo]

@[simp] theorem length_bcdDigits (b : Byte) : (bcdDigits b).length = 3 := rfl

theorem exec_ldBVx {s : State} (x : Nibble) (h : s.i.toNat ≤ 4093) :
    exec (.ldBVx x) s = .next (s.storeBytes (bcdDigits (s.reg x))) := by
  have hb : s.ea 0 + (bcdDigits (s.reg x)).length ≤ 4096 := by
    simp only [State.ea, length_bcdDigits]
    omega
  simp only [exec, execLdBVx, writeBlock_ok hb]
  rfl

/-- A number below 256 is the value of the byte made of it. -/
theorem ofNat_byte_toNat {n : Nat} (h : n < 256) : (BitVec.ofNat 8 n).toNat = n := Nat.mod_eq_of_lt h

/-- The stored digits, hundreds first, as numbers (R143). -/
theorem State.byteAt_storeBytes_bcdDigits (s : State) (b : Byte) :
    ((s.storeBytes (bcdDigits b)).byteAt (s.ea 0)).toNat = b.toNat / 100 ∧
    ((s.storeBytes (bcdDigits b)).byteAt (s.ea 1)).toNat = b.toNat / 10 % 10 ∧
    ((s.storeBytes (bcdDigits b)).byteAt (s.ea 2)).toNat = b.toNat % 10 := by
  have hb := b.isLt
  have digit : ∀ r < 3, (s.storeBytes (bcdDigits b)).byteAt (s.ea r) = (bcdDigits b).getD r 0 :=
    fun _ => s.byteAt_storeBytes_inside (bcdDigits b)
  rw [digit 0 (by decide), digit 1 (by decide), digit 2 (by decide)]
  exact ⟨ofNat_byte_toNat (by omega), ofNat_byte_toNat (by omega), ofNat_byte_toNat (by omega)⟩

/-- Settles O30: the block is the three digits. -/
theorem bcdStoresThreeDigits : Obligations.BcdStoresThreeDigits := by
  intro s x h
  obtain ⟨hundreds, tens, ones⟩ := s.byteAt_storeBytes_bcdDigits (s.reg x)
  exact ⟨s.storeBytes (bcdDigits (s.reg x)), exec_ldBVx x h, hundreds, tens, ones,
    fun _ => s.byteAt_storeBytes_outside (bcdDigits (s.reg x)), keeps_setMem s _⟩

/-! ### Loads -/

/-- The bytes of M from I on that `LD Vx, [I]` reads (R145). -/
def State.bytesUpTo (s : State) (x : Nibble) : List Byte :=
  (List.range (x.toNat + 1)).map fun r => s.byteAt (s.ea r)

@[simp] theorem State.length_bytesUpTo (s : State) (x : Nibble) : (s.bytesUpTo x).length = x.toNat + 1 := by
  simp [State.bytesUpTo]

theorem State.getD_bytesUpTo (s : State) {x : Nibble} {r : Nat} (h : r ≤ x.toNat) :
    (s.bytesUpTo x).getD r 0 = s.byteAt (s.ea r) := by
  simp [State.bytesUpTo, List.getD_eq_getElem?_getD, List.getElem?_range (Nat.lt_succ_of_le h)]

/-- The state with V0 to Vx loaded from I on: what `LD Vx, [I]` leaves when all its bytes lie in M (R145). -/
def State.loadBlock (s : State) (x : Nibble) : State := s.setV (loadRegs s.v 0 (s.bytesUpTo x))

theorem exec_ldVxMemI {s : State} {x : Nibble} (h : s.i.toNat + x.toNat ≤ 4095) :
    exec (.ldVxMemI x) s = .next (s.loadBlock x) := by
  have hb : x.toNat + 1 = 0 ∨ s.ea 0 + (x.toNat + 1) ≤ 4096 := by
    simp only [State.ea]
    omega
  simp only [exec, execLdVxMemI, readBlock_ok hb]
  rfl

/-- The load fills the registers up to Vx from I on and no others (R145). -/
theorem State.reg_loadBlock (s : State) (x r : Nibble) :
    (s.loadBlock x).reg r = if r.toNat ≤ x.toNat then s.byteAt (s.ea r.toNat) else s.reg r := by
  refine (getElem_loadRegs s.v 0 (s.bytesUpTo x) r.toNat r.isLt).trans ?_
  rw [State.length_bytesUpTo]
  by_cases h : r.toNat ≤ x.toNat
  · rw [if_pos (by omega), if_pos h, Nat.sub_zero, State.getD_bytesUpTo s h]
  · rw [if_neg (by omega), if_neg h]
    rfl

theorem keeps_loadBlock (s : State) (x : Nibble) :
    Keeps ((List.range 16).map (BitVec.ofNat 4)) [] s (s.loadBlock x) := by
  have hlen : (s.bytesUpTo x).length ≤ 16 := by
    rw [State.length_bytesUpTo]
    exact x.isLt
  have hsub := List.map_subset (BitVec.ofNat 4) (List.range_subset.2 hlen)
  exact (keeps_loadRegs s (s.bytesUpTo x)).mono (fun _ hr => hsub hr) (fun _ hp => hp)

/-- Settles O32, by the two cases of `State.reg_loadBlock`. -/
theorem loadBlockLoadsV0ToVx : Obligations.LoadBlockLoadsV0ToVx := by
  intro s x h
  refine ⟨s.loadBlock x, exec_ldVxMemI h, fun r hr => ?_, fun r hr => ?_, keeps_loadBlock s x⟩
  · rw [State.reg_loadBlock, if_pos hr]
  · rw [State.reg_loadBlock, if_neg (Nat.not_le.2 hr)]

/-! ### A store, then a load from the same I -/

/-- A load looks at nothing of the state but I and M: it fills the registers from any state that has them (R145). -/
theorem exec_ldVxMemI_of_same_memory {t u : State} {x : Nibble} (hi : u.i = t.i) (hm : ∀ a, u.byteAt a = t.byteAt a)
    (h : t.i.toNat + x.toNat ≤ 4095) :
    ∃ w, exec (.ldVxMemI x) u = .next w ∧ ∀ r : Nibble, r.toNat ≤ x.toNat → w.reg r = t.byteAt (t.ea r.toNat) := by
  refine ⟨u.loadBlock x, exec_ldVxMemI (hi ▸ h), fun r hr => ?_⟩
  rw [State.reg_loadBlock, if_pos hr, hm, State.ea, hi, State.ea]

/-- Settles O34: the store leaves I alone, so the load reads the block that was stored. -/
theorem storeThenLoadRestoresRegisters : Obligations.StoreThenLoadRestoresRegisters := by
  intro s t u x h hstore hi hm
  cases (exec_ldMemIVx h).symm.trans hstore
  obtain ⟨w, hload, hreg⟩ := exec_ldVxMemI_of_same_memory (t := s.storeRegs x) hi hm h
  exact ⟨w, hload, fun r hr => (hreg r hr).trans (State.byteAt_storeRegs hr)⟩

/-- Settles O35: V0, V1 and V2 are the stored digits, which add up to the number they were taken from. -/
theorem bcdThenLoadReconstructsNumber : Obligations.BcdThenLoadReconstructsNumber := by
  intro s t u x z h hstore hi hm hz hzle
  cases (exec_ldBVx x h).symm.trans hstore
  obtain ⟨w, hload, hreg⟩ := exec_ldVxMemI_of_same_memory (t := s.storeBytes (bcdDigits (s.reg x))) hi hm hzle
  obtain ⟨hundreds, tens, ones⟩ := s.byteAt_storeBytes_bcdDigits (s.reg x)
  refine ⟨w, hload, ?_⟩
  have h0 : (w.reg 0).toNat = (s.reg x).toNat / 100 := hreg 0 (Nat.zero_le _) ▸ hundreds
  have h1 : (w.reg 1).toNat = (s.reg x).toNat / 10 % 10 := hreg 1 (Nat.le_of_succ_le hz) ▸ tens
  have h2 : (w.reg 2).toNat = (s.reg x).toNat % 10 := hreg 2 hz ▸ ones
  omega

end Sys2Proof.Machine
end

section
/-! The display instructions (spec/43_display.md): what CLS and DRW leave on the screen, and DRW drawn twice. -/

namespace Sys2Proof.Machine

/-- Settles O37: 00E0 is the encoding of CLS, whose one update is the framebuffer. -/
theorem clsClearsScreen : Obligations.ClsClearsScreen :=
  ⟨decodeWord_encode .cls, fun s => ⟨s.setFb fbClear, rfl, pixel_fbClear, keeps_setFb s fbClear⟩⟩

/-! ### One draw -/

/-- The sprite's bytes from I on, top row first (R153). -/
def State.spriteBytes (s : State) (n : Nibble) : List Byte :=
  (List.range n.toNat).map fun r => s.byteAt (s.ea r)

@[simp] theorem State.length_spriteBytes (s : State) (n : Nibble) : (s.spriteBytes n).length = n.toNat := by
  simp [State.spriteBytes]

theorem State.getD_spriteBytes (s : State) {n : Nibble} {r : Nat} (h : r < n.toNat) :
    (s.spriteBytes n).getD r 0 = s.byteAt (s.ea r) := by
  simp [State.spriteBytes, List.getD_eq_getElem?_getD, List.getElem?_range h]

/-- What plotting takes for the sprite's bits are the bits of M that the statements speak of. -/
theorem spriteOver_spriteBytes (s : State) (n : Nibble) (x0 y0 px py : Nat) :
    spriteOver (s.spriteBytes n) x0 y0 px py = spriteBitAt s x0 y0 n.toNat px py := by
  rw [spriteOver, spriteBitAt, State.length_spriteBytes]
  by_cases hin : x0 ≤ px ∧ px < x0 + 8 ∧ y0 ≤ py ∧ py < y0 + n.toNat
  · have hrow : py - y0 < n.toNat := by omega
    rw [State.getD_spriteBytes s hrow]
  · rw [decide_eq_false hin, Bool.false_and, Bool.false_and]

/-- The bit that `DRW Vx, Vy, n` draws at a pixel (R153). -/
def State.drawsBit (s : State) (x y n : Nibble) (px py : Nat) : Bool :=
  spriteBitAt s ((s.reg x).toNat % 64) ((s.reg y).toNat % 32) n.toNat px py

/-- What `DRW Vx, Vy, n` plots: the framebuffer after, and the collision (R153). -/
def State.plotSprite (s : State) (x y n : Nibble) : Framebuffer × Bool :=
  plotRows s.fb (spriteCol (s.reg x)) (spriteRow (s.reg y)) (s.spriteBytes n)

/-- The state with the sprite drawn: what `DRW Vx, Vy, n` leaves when all its bytes lie in M (R153). -/
def State.drawSprite (s : State) (x y n : Nibble) : State :=
  (s.setFb (s.plotSprite x y n).1).setReg vf (flagByte (s.plotSprite x y n).2)

theorem exec_drwVxVyN {s : State} {x y n : Nibble} (h : InBounds s n.toNat) :
    exec (.drwVxVyN x y n) s = .next (s.drawSprite x y n) := by
  have hb : n.toNat = 0 ∨ s.ea 0 + n.toNat ≤ 4096 := h
  simp only [exec, execDrwVxVyN, readBlock_ok hb]
  rfl

theorem keeps_drawSprite (s : State) (x y n : Nibble) : Keeps [vf] [.fb] s (s.drawSprite x y n) :=
  ((keeps_setFb s _).mono (by simp) (by simp)).trans ((keeps_setReg _ vf _).mono (by simp) (by simp))

theorem pixel_drawSprite (s : State) (x y n : Nibble) {px py : Nat} (hx : px < 64) (hy : py < 32) :
    pixel (s.drawSprite x y n).fb px py = (pixel s.fb px py ^^ s.drawsBit x y n px py) :=
  calc
    pixel (s.drawSprite x y n).fb px py = pixel (s.plotSprite x y n).1 px py := rfl
    _ = (pixel s.fb px py ^^ spriteOver (s.spriteBytes n) _ _ px py) := pixel_plotRows _ _ _ _ _ _ hx hy
    _ = (pixel s.fb px py ^^ s.drawsBit x y n px py) := by rw [spriteOver_spriteBytes]; rfl

theorem plotSprite_collision (s : State) (x y n : Nibble) :
    (s.plotSprite x y n).2 = true ↔
      ∃ px py, px < 64 ∧ py < 32 ∧ pixel s.fb px py = true ∧ s.drawsBit x y n px py = true := by
  simp only [State.plotSprite, plotRows_collision, spriteOver_spriteBytes, and_comm (b := pixel s.fb _ _ = true)]
  rfl

theorem State.reg_vf_drawSprite (s : State) (x y n : Nibble) :
    (s.drawSprite x y n).reg vf = flagByte (s.plotSprite x y n).2 := State.reg_setReg_self _ _ _

theorem flagByte_eq_one_iff (c : Bool) : flagByte c = 1 ↔ c = true := by cases c <;> decide

theorem flagByte_eq_zero_iff (c : Bool) : flagByte c = 0 ↔ ¬ c = true := by cases c <;> decide

/-- Settles O38: each pixel by `pixel_drawSprite`, and VF is the flag of `plotSprite_collision`. -/
theorem drawXorsClippedSprite : Obligations.DrawXorsClippedSprite := by
  intro s x y n h
  refine ⟨s.drawSprite x y n, exec_drwVxVyN h, fun _ _ => pixel_drawSprite s x y n, fun hhit => ?_, fun hmiss => ?_,
    keeps_drawSprite s x y n⟩
  · rw [State.reg_vf_drawSprite, flagByte_eq_one_iff]
    exact (plotSprite_collision s x y n).2 hhit
  · rw [State.reg_vf_drawSprite, flagByte_eq_zero_iff]
    exact fun hc => hmiss ((plotSprite_collision s x y n).1 hc)

/-! ### The same draw twice -/

/-- A draw leaves I, M and every register but VF alone, so the next one draws the same bits (R154). -/
theorem State.drawsBit_drawSprite (s : State) {x y : Nibble} (n : Nibble) (hx : x ≠ vf) (hy : y ≠ vf) :
    (s.drawSprite x y n).drawsBit x y n = s.drawsBit x y n := by
  have frame := keeps_drawSprite s x y n
  have hregx : (s.drawSprite x y n).reg x = s.reg x := frame.reg x (by simpa using hx)
  have hregy : (s.drawSprite x y n).reg y = s.reg y := frame.reg y (by simpa using hy)
  funext px py
  rw [State.drawsBit, hregx, hregy]
  rfl

theorem drawSprite_drawSprite_fb (s : State) {x y : Nibble} (n : Nibble) (hx : x ≠ vf) (hy : y ≠ vf) :
    ((s.drawSprite x y n).drawSprite x y n).fb = s.fb := by
  refine framebuffer_ext fun px py hpx hpy => ?_
  rw [pixel_drawSprite _ _ _ _ hpx hpy, State.drawsBit_drawSprite s n hx hy, pixel_drawSprite _ _ _ _ hpx hpy,
    Bool.xor_assoc, Bool.xor_self, Bool.xor_false]

/-- After the first draw a 1 bit of the sprite lies over an on pixel exactly where the pixel was off before it. -/
theorem pixel_drawSprite_and_drawsBit (s : State) (x y n : Nibble) {px py : Nat} (hx : px < 64) (hy : py < 32) :
    pixel (s.drawSprite x y n).fb px py = true ∧ s.drawsBit x y n px py = true ↔
      pixel s.fb px py = false ∧ s.drawsBit x y n px py = true := by
  rw [pixel_drawSprite s x y n hx hy]
  refine and_congr_left fun hbit => ?_
  rw [hbit, Bool.xor_true, Bool.not_eq_true']

theorem reg_vf_drawSprite_drawSprite (s : State) {x y : Nibble} (n : Nibble) (hx : x ≠ vf) (hy : y ≠ vf) :
    ((s.drawSprite x y n).drawSprite x y n).reg vf = 1 ↔
      ∃ px py, px < 64 ∧ py < 32 ∧ pixel s.fb px py = false ∧ s.drawsBit x y n px py = true := by
  rw [State.reg_vf_drawSprite, flagByte_eq_one_iff, plotSprite_collision, State.drawsBit_drawSprite s n hx hy]
  exact exists₂_congr fun px py => and_congr_right fun hpx => and_congr_right fun hpy =>
    pixel_drawSprite_and_drawsBit s x y n hpx hpy

/-- A frame that excepts the framebuffer excepts nothing when the framebuffer is back. -/
theorem Keeps.of_fb_eq {regs : List Nibble} {s t : State} (h : Keeps regs [.fb] s t) (hfb : t.fb = s.fb) :
    Keeps regs [] s t :=
  ⟨h.reg, fun _ => h.pc (by simp), fun _ => h.i (by simp), fun _ => h.stack (by simp), fun _ => h.dt (by simp),
    fun _ => h.st (by simp), fun _ => hfb, fun _ => h.mem (by simp), fun _ => h.wait (by simp), h.halt, h.env⟩

/-- Settles O39: both draws exclusive-or the same bits, which restores each pixel, and VF is the second draw's flag. -/
theorem drawTwiceRestoresScreen : Obligations.DrawTwiceRestoresScreen := by
  intro s t x y n h hx hy hexec
  cases (exec_drwVxVyN h).symm.trans hexec
  have hfb := drawSprite_drawSprite_fb s n hx hy
  have frame : Keeps [vf] [.fb] s ((s.drawSprite x y n).drawSprite x y n) :=
    (keeps_drawSprite s x y n).trans (keeps_drawSprite _ x y n)
  exact ⟨_, exec_drwVxVyN (s := s.drawSprite x y n) h, hfb, reg_vf_drawSprite_drawSprite s n hx hy, frame.of_fb_eq hfb⟩

end Sys2Proof.Machine
end

section
/-! The keypad and the timers (spec/44_keypad_timers.md): the two keypad skips, the key load and the wait it can enter, and
the moves between a register and a timer. -/

namespace Sys2Proof.Machine

/-! ### The key load and the wait -/

/-- A key number as a byte is the key's number (R162). -/
@[simp] theorem keyByte_toNat (k : Nibble) : (keyByte k).toNat = k.toNat :=
  BitVec.toNat_setWidth_of_le (by decide)

/-- `LD Vx, K` with a sampled key loads it (R162). -/
theorem exec_ldVxK_of_key {s : State} {k : Nibble} (x : Nibble) (h : chooseKey s.env.keysHeld = some k) :
    exec (.ldVxK x) s = .next (s.setReg x (keyByte k)) := by
  simp only [exec, execLdVxK, State.keySample, h]

/-- `LD Vx, K` with no sampled key enters the wait state (R162). -/
theorem exec_ldVxK_of_no_key {s : State} (x : Nibble) (h : chooseKey s.env.keysHeld = none) :
    exec (.ldVxK x) s = .next (s.setWait (.waitKey x)) := by
  simp only [exec, execLdVxK, State.keySample, h]

/-- The frame of the end of a wait: the loaded register and WAIT (R163). -/
theorem keeps_setReg_setWait (s : State) (x : Nibble) (b : Byte) (w : WaitState) :
    Keeps [x] [.wait] s ((s.setReg x b).setWait w) :=
  ((keeps_setReg s x b).mono (fun _ h => h) (by simp)).trans ((keeps_setWait _ w).mono (by simp) (fun _ h => h))

/-- The wait Step with a sampled key loads it, ends the wait and does nothing else (R163). -/
theorem stepWait_of_key {s : State} {k : Nibble} (x : Nibble) (h : chooseKey s.env.keysHeld = some k) :
    (stepWait x s).wait = .run ∧ ((stepWait x s).reg x).toNat = k.toNat ∧ Keeps [x] [.wait] s (stepWait x s) := by
  have hend : stepWait x s = (s.setReg x (keyByte k)).setWait .run := by simp only [stepWait, State.keySample, h]
  rw [hend, State.reg_setWait, State.reg_setReg_self]
  exact ⟨rfl, keyByte_toNat k, keeps_setReg_setWait s x _ _⟩

/-- The wait Step with no sampled key does nothing (R163). -/
theorem stepWait_of_no_key {s : State} (x : Nibble) (h : chooseKey s.env.keysHeld = none) : stepWait x s = s := by
  simp only [stepWait, State.keySample, h]

/-- A Step that a script presents to a waiting core is the wait Step on its inputs (R163, R205). -/
theorem step_scripted_wait {s : State} {x : Nibble} {k : BitVec 16} {r : Byte} {es : List Event} (hh : s.halt = none)
    (hw : s.wait = .waitKey x) (hs : s.env.script = .step k r :: es) :
    step s = .next (stepWait x ((s.setScript es).latchInputs k r)) :=
  calc
    step s = applyEvent (.step k r) (s.setScript es) := step_script hs
    _ = .next (stepWait x ((s.setScript es).latchInputs k r)) :=
      applyEvent_step_waiting (s := s.setScript es) hh hw k r

/-- Settles O40: with a sampled key the one update is Vx, with none it is WAIT. -/
theorem keyLoadCompletesOrWaits : Obligations.KeyLoadCompletesOrWaits := by
  refine fun s x => ⟨fun k hkey => ?_, fun hnone => ?_⟩
  · obtain ⟨t, ht, hreg, frame⟩ := exec_writes_reg (exec_ldVxK_of_key x hkey)
    exact ⟨t, ht, hreg ▸ keyByte_toNat k, frame⟩
  · exact ⟨_, exec_ldVxK_of_no_key x hnone, rfl, keeps_setWait s _⟩

/-- Settles O13: the scripted Step is the wait Step on the presented keys (`step_scripted_wait`), by its two cases. -/
theorem waitStepSamplesKeypadOnce : Obligations.WaitStepSamplesKeypadOnce := by
  intro s x k r es hhalt hwait hscript
  have hstep := step_scripted_wait hhalt hwait hscript
  refine ⟨fun key hkey => ⟨_, hstep, stepWait_of_key x hkey⟩, fun hnone => ?_⟩
  rw [hstep, stepWait_of_no_key (s := (s.setScript es).latchInputs k r) x hnone]
  rfl

/-! ### Keypad skips -/

/-- `exec_skips_iff` with a clause for each of the two cases of the condition. -/
theorem exec_skips_cases {i : Instr} {s : State} {c : Bool} {p : Prop} (hexec : exec i s = .next (s.skipIf c))
    (hc : c = true ↔ p) :
    ∃ t, exec i s = .next t ∧ Keeps [] [.pc] s t ∧ (p → t.pc = s.pc + 2) ∧ (¬ p → t.pc = s.pc) := by
  classical
  obtain ⟨t, ht, hpc, frame⟩ := exec_skips_iff hexec hc
  exact ⟨t, ht, frame, fun hp => hpc.trans (if_pos hp), fun hp => hpc.trans (if_neg hp)⟩

/-- Settles O22: SKP is `Skip()` on the comparison of `keyIs_iff`, SKNP is `Skip()` on its negation. -/
theorem keypadSkipsMovePc : Obligations.KeypadSkipsMovePc := by
  intro s x
  have hkey := keyIs_iff s (s.reg x)
  refine ⟨exec_skips_cases rfl hkey, ?_⟩
  have hnokey : (!s.keyIs (s.reg x)) = true ↔ ¬ ∃ k, chooseKey s.env.keysHeld = some k ∧ k.toNat = (s.reg x).toNat := by
    rw [← hkey, Bool.not_eq_true', Bool.not_eq_true]
  obtain ⟨t, ht, frame, hskip, hstay⟩ := exec_skips_cases (i := .sknpVx x) rfl hnokey
  exact ⟨t, ht, frame, fun hheld => hstay (not_not_intro hheld), hskip⟩

/-! ### Timers -/

/-- The sound output is on exactly while ST is positive (R204; D21, log 17). -/
theorem State.sound_iff (s : State) : s.sound = true ↔ 0 < s.st.toNat := by
  rw [State.sound, decide_eq_true_iff, Nat.pos_iff_ne_zero, ne_eq, ne_eq, ← BitVec.toNat_inj]
  rfl

/-- Settles O41: each of the three is one update with the byte it reads, and the sound output follows ST. -/
theorem timerMovesCopyBytes : Obligations.TimerMovesCopyBytes :=
  fun s x =>
    ⟨⟨decodeWord_encode (.ldVxDt x), exec_writes_reg rfl⟩,
      ⟨decodeWord_encode (.ldDtVx x), s.setDt (s.reg x), rfl, rfl, keeps_setDt s _⟩,
      ⟨decodeWord_encode (.ldStVx x), s.setSt (s.reg x), rfl, rfl, State.sound_iff _, keeps_setSt s _⟩⟩

end Sys2Proof.Machine
end

section
/-! Fatal faults (spec/60_exceptions.md R181 to R187): which instruction latches which record, and when; and the invariant
that every step keeps, memory's canonical form with the legality of the HALT record. -/

namespace Sys2Proof.Machine

/-! ### An operation that fails latches its fault -/

/-- An instruction whose operation fails latches the kind of the failure, with the fetch address and its own word (R183). -/
theorem exec_latches_of_error {α : Type} {i : Instr} {s : State} {r : Except FatalKind α} {f : α → State} {k : FatalKind}
    (hexec : exec i s = .next (endInstr i s (r.map f))) (hr : r = .error k) :
    ∃ t, exec i s = .next t ∧ t.halt = some ⟨k, s.pc - 2, some (encode i)⟩ := by
  subst hr
  exact ⟨_, hexec, rfl⟩

/-- Settles O19: Push fails at depth 16 and Pop at depth 0. -/
theorem stackFaultsLatchHalt : Obligations.StackFaultsLatchHalt :=
  fun _ => ⟨fun _ hsp => exec_latches_of_error rfl (push_error hsp), fun hsp => exec_latches_of_error rfl (pop_error hsp)⟩

/-- A block store fails when its last byte lies beyond M (R61). -/
theorem writeBlock_error_of_last {m : Memory} {s : State} {bs : List Byte} {n : Nat} (hlen : bs.length = n + 1)
    (h : 4095 < s.i.toNat + n) : writeBlock m (s.ea 0) bs = .error .writeBounds := by
  refine writeBlock_error ⟨List.ne_nil_of_length_eq_add_one hlen, ?_⟩
  simp only [State.ea]
  omega

/-- A block load fails when its last byte lies beyond M (R61). -/
theorem readBlock_error_of_last {m : Memory} {s : State} {n : Nat} (h : 4095 < s.i.toNat + n) :
    readBlock m (s.ea 0) (n + 1) = .error .readBounds := by
  refine readBlock_error ⟨Nat.succ_ne_zero n, ?_⟩
  simp only [State.ea]
  omega

theorem readBlock_error_of_not_inBounds {m : Memory} {s : State} {n : Nat} (h : ¬ InBounds s n) :
    readBlock m (s.ea 0) n = .error .readBounds := by
  simp only [InBounds] at h
  refine readBlock_error ?_
  simp only [State.ea]
  omega

/-- Settles O33: the two stores fail in their block write, the load and DRW in their block read. -/
theorem transfersOutOfBoundsLatchHalt : Obligations.TransfersOutOfBoundsLatchHalt := by
  intro s x y n
  refine ⟨fun h => ?_, fun h => ?_, fun h => ?_, fun h => ?_⟩
  · have hlast : 4095 < s.i.toNat + 2 := by omega
    exact exec_latches_of_error rfl (writeBlock_error_of_last (length_bcdDigits _) hlast)
  · exact exec_latches_of_error rfl (writeBlock_error_of_last (s.length_regsUpTo x) h)
  · exact exec_latches_of_error rfl (readBlock_error_of_last h)
  · exact exec_latches_of_error rfl (readBlock_error_of_not_inBounds h)

/-! ### All that an instruction can do to HALT -/

/-- Settles O43: the frame of `exec_keepsOrHalts` holds HALT, and its other case is the latched record. -/
theorem everyInstructionEndsInNextState : Obligations.EveryInstructionEndsInNextState := by
  intro i s
  obtain ⟨t, ht, frame | ⟨k, hk, rfl⟩⟩ := exec_keepsOrHalts i s
  · exact ⟨t, ht, .inl frame.halt⟩
  · exact ⟨_, ht, .inr ⟨k, hk, rfl⟩⟩

/-- An instruction that halts a running core is one that can raise a fault (R182). -/
theorem faultOf_ne_none_of_halts {i : Instr} {s t : State} (hs : s.halt = none) (h : exec i s = .next t)
    (ht : t.halt ≠ none) : faultOf i ≠ none := by
  obtain ⟨u, hu, frame | ⟨k, hk, _⟩⟩ := exec_keepsOrHalts i s
  · cases hu.symm.trans h
    exact absurd (frame.halt.trans hs) ht
  · simp [hk]

/-- Settles O44: outside its condition each of the six ends in a state with the HALT it started with. -/
theorem onlySixInstructionsCanHalt : Obligations.OnlySixInstructionsCanHalt := by
  intro i s t hs h ht
  have hfault := faultOf_ne_none_of_halts hs h ht
  have hends {u : State} (hu : exec i s = .next u) : u.halt ≠ none := by
    cases hu.symm.trans h
    exact ht
  cases i with
  | callNnn nnn =>
    refine .inl ⟨⟨nnn, rfl⟩, by_contra fun hsp => ?_⟩
    have hlt : s.sp.val < 16 := by have := s.sp.isLt; omega
    exact hends (exec_callNnn_of_push (push_ok hlt)) hs
  | ret =>
    refine .inr (.inl ⟨rfl, by_contra fun hsp => ?_⟩)
    exact hends (exec_ret_of_pop (pop_ok hsp)) hs
  | ldBVx x =>
    refine .inr (.inr (.inl ⟨⟨x, rfl⟩, by_contra fun hin => ?_⟩))
    exact hends (exec_ldBVx x (by omega)) hs
  | ldMemIVx x =>
    refine .inr (.inr (.inr (.inl ⟨x, rfl, by_contra fun hin => ?_⟩)))
    exact hends (exec_ldMemIVx (by omega)) hs
  | ldVxMemI x =>
    refine .inr (.inr (.inr (.inr (.inl ⟨x, rfl, by_contra fun hin => ?_⟩))))
    exact hends (exec_ldVxMemI (by omega)) hs
  | drwVxVyN x y n =>
    have hout : ¬ InBounds s n.toNat := fun hin => hends (exec_drwVxVyN hin) hs
    simp only [InBounds, not_or] at hout
    refine .inr (.inr (.inr (.inr (.inr ⟨x, y, n, rfl, ?_, by omega⟩))))
    rintro rfl
    exact hout.1 rfl
  | _ => exact absurd rfl hfault

/-! ### The invariant: the records -/

theorem legalRecord_fetchBounds : LegalRecord ⟨.fetchBounds, 0xFFF, none⟩ :=
  ⟨fun _ => ⟨rfl, rfl⟩, fun _ h => by cases h⟩

/-- The record an instruction leaves holds its own word, which decodes to it (R183). -/
theorem legalRecord_of_faultOf {i : Instr} {k : FatalKind} (h : faultOf i = some k) (a : Addr) :
    LegalRecord ⟨k, a, some (encode i)⟩ := by
  refine ⟨fun hnone => (by cases hnone), fun w hw => ?_⟩
  cases hw
  exact ⟨i, decodeWord_encode i, h⟩

theorem canonicalAndLegal_latchHalt {r : FaultRecord} (h : LegalRecord r) (s : State) :
    CanonicalAndLegal (latchHalt r s) :=
  ⟨latchHalt_wf r s, fun r' hr' => by cases hr'; exact h⟩

/-- The invariant speaks of memory and HALT only. -/
theorem CanonicalAndLegal.of_wf_of_halt_eq {s t : State} (h : CanonicalAndLegal s) (hm : t.mem.wf = true)
    (hh : t.halt = s.halt) : CanonicalAndLegal t :=
  ⟨hm, hh ▸ h.2⟩

theorem CanonicalAndLegal.of_mem_eq_of_halt_eq {s t : State} (h : CanonicalAndLegal s) (hm : t.mem = s.mem)
    (hh : t.halt = s.halt) : CanonicalAndLegal t :=
  h.of_wf_of_halt_eq (hm ▸ h.1) hh

/-! ### The invariant: memory through an instruction -/

theorem mem_of_push {a : Addr} {s t : State} (h : push a s = .ok t) : t.mem = s.mem := by
  rcases push_cases h with ⟨_, ht⟩ | ⟨_, ht⟩
  · cases ht
    rfl
  · cases ht

theorem mem_of_pop {s : State} {p : Addr × State} (h : pop s = .ok p) : p.2.mem = s.mem := by
  by_cases hs : s.sp.val = 0
  · cases (pop_error hs).symm.trans h
  · cases (pop_ok hs).symm.trans h
    rfl

/-- An instruction that can fault leaves memory canonical if the update behind its operation does. -/
theorem endInstr_map_wf {α : Type} {i : Instr} {s : State} {r : Except FatalKind α} {f : α → State}
    (hok : ∀ a, r = .ok a → (f a).mem.wf = true) : (endInstr i s (r.map f)).mem.wf = true := by
  cases r with
  | ok a => exact hok a rfl
  | error k => exact latchHalt_wf _ s

/-- Memory stays canonical: only the two stores write it, and the fault entry makes it anew (R51, R184). -/
theorem exec_keeps_wf {i : Instr} {s t : State} (hm : s.mem.wf = true) (h : exec i s = .next t) : t.mem.wf = true := by
  cases i with
  | ldBVx | ldMemIVx =>
    cases h
    exact endInstr_map_wf fun _ => writeBlock_wf hm
  | callNnn =>
    cases h
    exact endInstr_map_wf fun u hu => (mem_of_push hu).symm ▸ hm
  | ret =>
    cases h
    exact endInstr_map_wf fun p hp => (mem_of_pop hp).symm ▸ hm
  | drwVxVyN | ldVxMemI =>
    cases h
    exact endInstr_map_wf fun _ _ => hm
  | seVxKk | sneVxKk | seVxVy | sneVxVy | skpVx | sknpVx =>
    cases h
    rwa [State.skipIf_mem]
  | ldVxK x =>
    cases h
    cases s.keySample <;> exact hm
  | _ =>
    cases h
    exact hm

theorem exec_keeps_invariant {i : Instr} {s t : State} (hs : CanonicalAndLegal s) (h : exec i s = .next t) :
    CanonicalAndLegal t := by
  obtain ⟨u, hu, frame | ⟨k, hk, rfl⟩⟩ := exec_keepsOrHalts i s
  · cases hu.symm.trans h
    exact hs.of_wf_of_halt_eq (exec_keeps_wf hs.1 h) frame.halt
  · cases hu.symm.trans h
    exact canonicalAndLegal_latchHalt (legalRecord_of_faultOf hk _) s

/-! ### The invariant: the events -/

theorem stepRun_keeps_invariant {s t : State} (hs : CanonicalAndLegal s) (h : stepRun s = .next t) :
    CanonicalAndLegal t := by
  rcases stepRun_cases s with ⟨_, hfetch⟩ | ⟨_, _, hdiag⟩ | ⟨i, _, _, hexec⟩
  · cases hfetch.symm.trans h
    exact canonicalAndLegal_latchHalt legalRecord_fetchBounds s
  · cases hdiag.symm.trans h
    exact hs.of_mem_eq_of_halt_eq rfl rfl
  · exact exec_keeps_invariant (s := s.advance) (hs.of_mem_eq_of_halt_eq rfl rfl) (hexec.symm.trans h)

theorem stepWait_keeps_invariant {s : State} (x : Nibble) (hs : CanonicalAndLegal s) :
    CanonicalAndLegal (stepWait x s) := by
  unfold stepWait
  cases s.keySample with
  | none => exact hs
  | some k => exact hs.of_mem_eq_of_halt_eq rfl rfl

theorem resetEvent_keeps_invariant {rom font : List Byte} {s t : State} (h : resetEvent rom font s = .next t) :
    CanonicalAndLegal t := by
  by_cases hfit : rom.length ≤ 3584 ∧ font.length = 80
  · obtain ⟨hrom, hfont⟩ := hfit
    cases (resetEvent_ok s hrom hfont).symm.trans h
    exact ⟨wf_resetMemory hrom hfont, fun _ hr => by cases hr⟩
  · cases (resetEvent_refused s hfit).symm.trans h

/-- Every event keeps the invariant, in every state of HALT and WAIT (R205). -/
theorem applyEvent_keeps_invariant {e : Event} {s t : State} (hs : CanonicalAndLegal s)
    (h : applyEvent e s = .next t) : CanonicalAndLegal t := by
  cases e with
  | reset rom font => exact resetEvent_keeps_invariant h
  | timerTick =>
    cases hh : s.halt with
    | some r => cases (applyEvent_tick_halted hh).symm.trans h
    | none =>
      cases (applyEvent_tick_running hh).symm.trans h
      exact hs.of_mem_eq_of_halt_eq rfl rfl
  | step k b =>
    have hin : CanonicalAndLegal (s.latchInputs k b) := hs.of_mem_eq_of_halt_eq rfl rfl
    cases hh : s.halt with
    | some r => cases (applyEvent_step_halted hh k b).symm.trans h
    | none =>
      cases hw : s.wait with
      | waitKey x =>
        cases (applyEvent_step_waiting hh hw k b).symm.trans h
        exact stepWait_keeps_invariant x hin
      | run => exact stepRun_keeps_invariant hin ((applyEvent_step_running hh hw k b).symm.trans h)

/-- Settles O49: a step is one event, the script's first or the Step of a free round, from a state with the same memory
and HALT; `applyEvent_keeps_invariant` does the rest. -/
theorem stepKeepsInvariant : Obligations.StepKeepsInvariant := by
  intro s t hs h
  cases hscript : s.env.script with
  | nil =>
    have hround : freeRound s = .next t := (step_free hscript).symm.trans h
    exact applyEvent_keeps_invariant (s := timerTicks _ s.drawOne) (hs.of_mem_eq_of_halt_eq rfl rfl) hround
  | cons e es =>
    have hevent : applyEvent e (s.setScript es) = .next t := (step_script hscript).symm.trans h
    exact applyEvent_keeps_invariant (s := s.setScript es) (hs.of_mem_eq_of_halt_eq rfl rfl) hevent

end Sys2Proof.Machine
end

section
/-! The events (spec/60_exceptions.md R184, R186, R195, R205): a Step that fetches no instruction, the events a halted core
refuses, the TimerTick, and the schedule behind a free round. -/

namespace Sys2Proof.Machine

/-! ### A Step that runs no instruction -/

/-- A Step that a script presents to a core that is neither halted nor waiting fetches with its inputs presented (R74). -/
theorem step_scripted_run {s : State} {k : BitVec 16} {r : Byte} {es : List Event} (hh : s.halt = none)
    (hw : s.wait = .run) (hs : s.env.script = .step k r :: es) :
    step s = stepRun ((s.setScript es).latchInputs k r) :=
  calc
    step s = applyEvent (.step k r) (s.setScript es) := step_script hs
    _ = stepRun ((s.setScript es).latchInputs k r) := applyEvent_step_running (s := s.setScript es) hh hw k r

/-- A word that no row of the table accepts is rejected under its own name (R80). -/
theorem decodeWord_of_no_row {w : Word} (h : ∀ row ∈ opcodeTable, row.accepts w = false) :
    decodeWord w = .error (.unknownEncoding w) := by
  rw [decodeWord_unknown_iff, exists_decodeWord_iff_accepted]
  rintro ⟨row, hrow, hacc⟩
  exact Bool.false_ne_true ((h row hrow).symm.trans hacc)

/-- Settles O6: the fetched word is rejected, and the Step ends with PC advanced and the diagnostic. -/
theorem unknownEncodingOnlyEmitsDiag : Obligations.UnknownEncodingOnlyEmitsDiag := by
  rintro s _ k r es hhalt hwait hpc hscript rfl hrows
  have hdec : decodeWord ((s.setScript es).latchInputs k r).fetched = .error (.unknownEncoding s.fetched) :=
    decodeWord_of_no_row hrows
  exact (step_scripted_run hhalt hwait hscript).trans (stepRun_unknown (s := (s.setScript es).latchInputs k r) hpc hdec)

/-- Settles O7: nothing can be fetched at 0xFFF, so the Step latches the fetch fault. -/
theorem fetchAtTopLatchesFetchBounds : Obligations.FetchAtTopLatchesFetchBounds := by
  intro s k r es hhalt hwait hpc hscript
  have htop : 4094 < ((s.setScript es).latchInputs k r).pc.toNat := by simp [hpc]
  refine ⟨_, (step_scripted_run hhalt hwait hscript).trans (stepRun_fetchFault htop), ?_⟩
  simp [hpc]

/-! ### A halted core -/

/-- A free round holds a Step, which a halted core refuses (R184; log 4). -/
theorem freeRound_halted {s : State} {r : FaultRecord} (h : s.halt = some r) : freeRound s = .fault (.halted r) :=
  applyEvent_step_halted (s := timerTicks (Config.freeTicks s.env.drawn) s.drawOne) h _ _

/-- Settles O8: the Step, the TimerTick and the free round are refused, and a legal Reset sets HALT and WAIT anew. -/
theorem haltedCoreAcceptsOnlyReset : Obligations.HaltedCoreAcceptsOnlyReset := by
  intro s rec hhalt
  refine ⟨fun k r es hs => ?_, fun es hs => ?_, fun hs => ?_, fun rom font es hs hrom hfont => ?_⟩
  · exact (step_script hs).trans (applyEvent_step_halted (s := s.setScript es) hhalt k r)
  · exact (step_script hs).trans (applyEvent_tick_halted (s := s.setScript es) hhalt)
  · exact (step_free hs).trans (freeRound_halted hhalt)
  · exact ⟨_, (step_script hs).trans (resetEvent_ok (s.setScript es) hrom hfont), rfl, rfl⟩

/-! ### TimerTicks -/

/-- Settles O12: the event is `TimerTick()`, of which only the two timers need a look. -/
theorem timerTickDecrementsBothTimers : Obligations.TimerTickDecrementsBothTimers := by
  intro s es hhalt hs
  have hstep : step s = .next (timerTick (s.setScript es)) :=
    (step_script hs).trans (applyEvent_tick_running (s := s.setScript es) hhalt)
  exact ⟨_, hstep, timerDown_toNat s.dt, timerDown_toNat s.st, rfl, fun _ => rfl, rfl, rfl, rfl, rfl, rfl,
    fun _ => rfl, rfl, hhalt⟩

theorem applyEvents_singleton (e : Event) (s : State) : applyEvents [e] s = applyEvent e s := by
  simp only [applyEvents]
  cases applyEvent e s <;> rfl

/-- A running core makes all TimerTicks at the head of a schedule (R195, R197). -/
theorem applyEvents_ticks_running (n : Nat) (es : List Event) {s : State} (h : s.halt = none) :
    applyEvents (List.replicate n .timerTick ++ es) s = applyEvents es (timerTicks n s) := by
  induction n generalizing s with
  | zero => rw [timerTicks_zero, List.replicate_zero, List.nil_append]
  | succ n ih =>
    rw [timerTicks_succ, ← ih (s := timerTick s) h, List.replicate_succ, List.cons_append, applyEvents,
      applyEvent_tick_running h]

/-- A halted core refuses the first event of TimerTicks and a Step, be it a TimerTick or the Step (R184; log 4). -/
theorem applyEvents_ticks_step_halted (n : Nat) (k : BitVec 16) (b : Byte) {s : State} {r : FaultRecord}
    (h : s.halt = some r) :
    applyEvents (List.replicate n .timerTick ++ [.step k b]) s = .fault (.halted r) := by
  cases n with
  | zero => exact (applyEvents_singleton _ s).trans (applyEvent_step_halted h k b)
  | succ n => rw [List.replicate_succ, List.cons_append, applyEvents, applyEvent_tick_halted h]

/-- Settles O14: a running core makes the TimerTicks and then the Step; a halted one refuses the round and the schedule. -/
theorem unscriptedStepIsTicksThenStep : Obligations.UnscriptedStepIsTicksThenStep := by
  intro s hs
  change step s = applyEvents _ s.drawOne
  rw [step_free hs]
  cases hhalt : s.halt with
  | none =>
    rw [applyEvents_ticks_running (s := s.drawOne) _ _ hhalt, applyEvents_singleton]
    rfl
  | some r => rw [freeRound_halted hhalt, applyEvents_ticks_step_halted (s := s.drawOne) _ _ _ hhalt]

end Sys2Proof.Machine
end

section
/-! The inputs of a Step (spec/60_exceptions.md R200 to R202): the choice of one key, and the instructions that the inputs
reach. -/

namespace Sys2Proof.Machine

/-! ### The choice of one key -/

theorem chooseKey_eq_none_iff {held : BitVec 16} : chooseKey held = none ↔ held = 0 := by
  refine ⟨fun hnone => BitVec.eq_of_getLsbD_eq fun j hj => ?_, ?_⟩
  · have hkey := chooseKey_eq_none hnone (BitVec.ofNat 4 j)
    rw [BitVec.toNat_ofNat, Nat.mod_eq_of_lt hj] at hkey
    exact hkey.trans BitVec.getLsbD_zero.symm
  · rintro rfl
    exact chooseKey_none

/-- Settles O42: the sample is the first hit of a search along the priority order. -/
theorem keySampleFollowsPriority : Obligations.KeySampleFollowsPriority := by
  refine fun held => ⟨chooseKey_eq_none_iff, fun k => ?_⟩
  rw [chooseKey, List.find?_eq_some_iff_append]
  simp only [Bool.not_eq_true', Config.keyPriority]
  constructor
  · rintro ⟨hk, before, after, hsplit, hbefore⟩
    exact ⟨before, after, hsplit, hk, hbefore⟩
  · rintro ⟨before, after, hsplit, hk, hbefore⟩
    exact ⟨hk, before, after, hsplit, hbefore⟩

/-! ### Instructions under another environment -/

/-- The two ends of one instruction under two environments: the same HALT, and on a running core the same state but for
the environment, which is `e` in the second (R184, R200, R202). -/
def SameButEnv (e : Env) (t u : State) : Prop := u.halt = t.halt ∧ (t.halt = none → u = t.setEnv e)

theorem SameButEnv.of_eq {e : Env} {t u : State} (h : u = t.setEnv e) : SameButEnv e t u :=
  ⟨h ▸ rfl, fun _ => h⟩

theorem push_setEnv (a : Addr) (s : State) (e : Env) : push a (s.setEnv e) = (push a s).map (State.setEnv · e) := by
  unfold push
  by_cases h : s.sp.val < 16
  · rw [dif_pos h, dif_pos (show (s.setEnv e).sp.val < 16 from h)]
    rfl
  · rw [dif_neg h, dif_neg (show ¬ (s.setEnv e).sp.val < 16 from h)]
    rfl

theorem pop_setEnv (s : State) (e : Env) :
    pop (s.setEnv e) = (pop s).map fun p => (p.1, p.2.setEnv e) := by
  unfold pop
  by_cases h : s.sp.val = 0
  · rw [dif_pos h, dif_pos (show (s.setEnv e).sp.val = 0 from h)]
    rfl
  · rw [dif_neg h, dif_neg (show ¬ (s.setEnv e).sp.val = 0 from h)]
    rfl

theorem skipIf_setEnv (s : State) (e : Env) (c : Bool) : (s.setEnv e).skipIf c = (s.skipIf c).setEnv e := by
  cases c <;> rfl

/-- The keypad comparison looks at nothing of the environment but the keys (R160, R200). -/
theorem keyIs_setEnv {s : State} {e : Env} (h : e.keysHeld = s.env.keysHeld) (b : Byte) :
    (s.setEnv e).keyIs b = s.keyIs b := by
  simp only [State.keyIs, State.keySample, State.setEnv_env, h]

/-- An operation that can fail, followed by an update: it fails alike in both environments, or its answers differ by `g`
and the updates of them in the environment alone. -/
theorem sameButEnv_endInstr {α : Type} {i : Instr} {s : State} {e : Env} {r r' : Except FatalKind α}
    {f f' : α → State} {g : α → α} (hr : r' = r.map g) (hf : ∀ a, f' (g a) = (f a).setEnv e) :
    SameButEnv e (endInstr i s (r.map f)) (endInstr i (s.setEnv e) (r'.map f')) := by
  subst hr
  cases r with
  | ok a => exact .of_eq (hf a)
  | error k => exact ⟨rfl, fun h => by cases h⟩

/-- `sameButEnv_endInstr` for an operation on memory, which is not told the environment. -/
theorem sameButEnv_endInstr_block {α : Type} {i : Instr} {s : State} {e : Env} {r : Except FatalKind α}
    {f f' : α → State} (hf : ∀ a, f' a = (f a).setEnv e) :
    SameButEnv e (endInstr i s (r.map f)) (endInstr i (s.setEnv e) (r.map f')) :=
  sameButEnv_endInstr (g := id) (by cases r <;> rfl) hf

/-- An instruction sees of the environment the keys, if it samples the keypad, and the random byte, if it is RND (R200,
R202). -/
theorem exec_setEnv {i : Instr} {s : State} {e : Env} (hk : readsKey i = true → e.keysHeld = s.env.keysHeld)
    (hr : (∃ x kk, i = .rndVxKk x kk) → e.rnd = s.env.rnd) :
    ∃ t u, exec i s = .next t ∧ exec i (s.setEnv e) = .next u ∧ SameButEnv e t u := by
  cases i with
  | callNnn => exact ⟨_, _, rfl, rfl, sameButEnv_endInstr (push_setEnv s.pc s e) fun _ => rfl⟩
  | ret => exact ⟨_, _, rfl, rfl, sameButEnv_endInstr (pop_setEnv s e) fun _ => rfl⟩
  | drwVxVyN | ldVxMemI | ldBVx | ldMemIVx => exact ⟨_, _, rfl, rfl, sameButEnv_endInstr_block fun _ => rfl⟩
  | seVxKk | sneVxKk | seVxVy | sneVxVy => exact ⟨_, _, rfl, rfl, .of_eq (skipIf_setEnv s e _)⟩
  | skpVx | sknpVx =>
    refine ⟨_, _, rfl, rfl, .of_eq ?_⟩
    rw [keyIs_setEnv (hk rfl), skipIf_setEnv]
    rfl
  | ldVxK x =>
    cases hkey : chooseKey s.env.keysHeld with
    | some k =>
      exact ⟨_, _, exec_ldVxK_of_key x hkey, exec_ldVxK_of_key x (hk rfl ▸ hkey), .of_eq rfl⟩
    | none =>
      exact ⟨_, _, exec_ldVxK_of_no_key x hkey, exec_ldVxK_of_no_key x (hk rfl ▸ hkey), .of_eq rfl⟩
  | rndVxKk x kk =>
    refine ⟨_, _, rfl, rfl, .of_eq ?_⟩
    rw [State.randByte, State.setEnv_env, hr ⟨x, kk, rfl⟩]
    rfl
  | _ => exact ⟨_, _, rfl, rfl, .of_eq rfl⟩

/-- `exec_setEnv` for a change `f` of the environment: an instruction that ends running has kept the environment it was
given, so the two ends differ by `f` as the two beginnings do. -/
theorem exec_under_changed_env {i : Instr} {s t : State} (f : Env → Env) (h : exec i s = .next t)
    (hk : readsKey i = true → (f s.env).keysHeld = s.env.keysHeld)
    (hr : (∃ x kk, i = .rndVxKk x kk) → (f s.env).rnd = s.env.rnd) :
    ∃ u, exec i (s.setEnv (f s.env)) = .next u ∧ SameButEnv (f t.env) t u := by
  obtain ⟨t', u, ht', hu, hhalt, hsame⟩ := exec_setEnv hk hr
  cases ht'.symm.trans h
  refine ⟨u, hu, hhalt, fun ht => ?_⟩
  rw [(exec_keeps h ht).env]
  exact hsame ht

/-- Settles O47: each clause changes the one input of the environment that its instructions do not see. -/
theorem inputsReachOnlyTheirReaders : Obligations.InputsReachOnlyTheirReaders := by
  intro i s t _ h
  refine ⟨fun hreads k => ?_, fun hrnd r => ?_⟩
  · refine exec_under_changed_env (fun e => { e with keysHeld := k }) h (fun hr => ?_) fun _ => rfl
    cases hreads.symm.trans hr
  · refine exec_under_changed_env (fun e => { e with rnd := r }) h (fun _ => rfl) fun hi => ?_
    obtain ⟨x, kk, hi⟩ := hi
    exact absurd hi (hrnd x kk)

end Sys2Proof.Machine
end

section
/-! A Reset event (spec/70_reset_and_hazards.md R220, R222): the state it builds, and its precondition. -/

namespace Sys2Proof.Machine

/-- A Reset that a script presents is accepted or refused whatever HALT and WAIT are (R205). -/
theorem step_scripted_reset {s : State} {rom font : List Byte} {es : List Event}
    (hs : s.env.script = .reset rom font :: es) : step s = resetEvent rom font (s.setScript es) :=
  step_script hs

/-- Settles O9: the next state is `State.reset` with the memory of `read_resetMemory` and the environment that goes on. -/
theorem resetBuildsStateFromNothing : Obligations.ResetBuildsStateFromNothing := by
  intro s rom font es hs hrom hfont
  exact ⟨_, (step_scripted_reset hs).trans (resetEvent_ok (s.setScript es) hrom hfont), reset_reg, rfl, rfl, rfl,
    reset_stk, rfl, rfl, pixel_fbClear, rfl, rfl, read_resetMemory hfont, rfl⟩

/-- Settles O10: either length alone fails the precondition. -/
theorem resetOutsidePreconditionIsRefused : Obligations.ResetOutsidePreconditionIsRefused := by
  intro s rom font es hs hlen
  have hfit : ¬ (rom.length ≤ 3584 ∧ font.length = 80) := by omega
  exact (step_scripted_reset hs).trans (resetEvent_refused (s.setScript es) hfit)

end Sys2Proof.Machine
end
